-- ==== Sys2Proof/Word.lean ====
section
/-! DEFINITION. The word types of the machine (spec/00_scope.md R7): all values are unsigned. -/

namespace Sys2Proof

/-- `u8`: a register, a timer, a byte of memory. -/
abbrev Byte := BitVec 8

/-- `u16`: an instruction word, `PC`, `I`, a call-stack slot. -/
abbrev Word := BitVec 16

/-- `u4`: a 4-bit field of the instruction word. -/
abbrev Nibble := BitVec 4

/-- The index of a general register, always a 4-bit field (R10). -/
abbrev RegIdx := BitVec 4

/-- A key code, 0x0 to 0xF (R23). -/
abbrev Key := BitVec 4

/-- The 12-bit address field `NNN` (R62). -/
abbrev Addr12 := BitVec 12

/-- `VF`, the flag register (R11). -/
abbrev regF : RegIdx := 0xF#4

end Sys2Proof
end

