-- ==== Sys2Proof/Syntax.lean ====
section
/-! DEFINITION. The instructions, one constructor for each row of spec/opcode_table.json in the table's order
(spec/30_encoding.md R73). Operands are the fields of R62 that the row's format uses. Bits the decoder does not examine (R69)
are kept as the operand `u`, so that no bit of a word is dropped: no meaning reads them (log 7). -/

namespace Sys2Proof

/-- One instruction. `x`, `y` select V[X], V[Y]; `n`, `nn`, `nnn` are the 4-, 8- and 12-bit immediates. -/
inductive Instr where
  /-- 00E0, `CLS`; `u` is `w[11:8]`, not examined. -/
  | cls (u : Nibble)
  /-- 00EE, `RET`; `u` is `w[11:8]`, not examined. -/
  | ret (u : Nibble)
  /-- 1NNN, `JP nnn`. -/
  | jp (nnn : Addr12)
  /-- 2NNN, `CALL nnn`. -/
  | call (nnn : Addr12)
  /-- 3XNN, `SE Vx, nn`. -/
  | seImm (x : RegIdx) (nn : Byte)
  /-- 4XNN, `SNE Vx, nn`. -/
  | sneImm (x : RegIdx) (nn : Byte)
  /-- 5XY0, `SE Vx, Vy`; `u` is `w[3:0]`, not examined. -/
  | seReg (x y : RegIdx) (u : Nibble)
  /-- 6XNN, `LD Vx, nn`. -/
  | ldImm (x : RegIdx) (nn : Byte)
  /-- 7XNN, `ADD Vx, nn`. -/
  | addImm (x : RegIdx) (nn : Byte)
  /-- 8XY0, `LD Vx, Vy`. -/
  | ldReg (x y : RegIdx)
  /-- 8XY1, `OR Vx, Vy`. -/
  | orReg (x y : RegIdx)
  /-- 8XY2, `AND Vx, Vy`. -/
  | andReg (x y : RegIdx)
  /-- 8XY3, `XOR Vx, Vy`. -/
  | xorReg (x y : RegIdx)
  /-- 8XY4, `ADD Vx, Vy`. -/
  | addReg (x y : RegIdx)
  /-- 8XY5, `SUB Vx, Vy`. -/
  | subReg (x y : RegIdx)
  /-- 8XY6, `SHR Vx`; `y` is decoded and never used. -/
  | shr (x y : RegIdx)
  /-- 8XY7, `SUBN Vx, Vy`. -/
  | subnReg (x y : RegIdx)
  /-- 8XYE, `SHL Vx`; `y` is decoded and never used. -/
  | shl (x y : RegIdx)
  /-- 9XY0, `SNE Vx, Vy`; `u` is `w[3:0]`, not examined. -/
  | sneReg (x y : RegIdx) (u : Nibble)
  /-- ANNN, `LD I, nnn`. -/
  | ldI (nnn : Addr12)
  /-- BNNN, `JP V0, nnn`. -/
  | jpV0 (nnn : Addr12)
  /-- CXNN, `RND Vx, nn`. -/
  | rnd (x : RegIdx) (nn : Byte)
  /-- DXYN, `DRW Vx, Vy, n`. -/
  | drw (x y : RegIdx) (n : Nibble)
  /-- EX9E, `SKP Vx`. -/
  | skp (x : RegIdx)
  /-- EXA1, `SKNP Vx`. -/
  | sknp (x : RegIdx)
  /-- FX07, `LD Vx, DT`. -/
  | ldVxDT (x : RegIdx)
  /-- FX0A, `LD Vx, K`. -/
  | ldVxK (x : RegIdx)
  /-- FX15, `LD DT, Vx`. -/
  | ldDTVx (x : RegIdx)
  /-- FX18, `LD ST, Vx`. -/
  | ldSTVx (x : RegIdx)
  /-- FX1E, `ADD I, Vx`. -/
  | addI (x : RegIdx)
  /-- FX29, `LD F, Vx`. -/
  | ldF (x : RegIdx)
  /-- FX33, `LD B, Vx`. -/
  | ldB (x : RegIdx)
  /-- FX55, `LD [I], Vx`. -/
  | storeRegs (x : RegIdx)
  /-- FX65, `LD Vx, [I]`. -/
  | loadRegs (x : RegIdx)
  /-- The UNKNOWN (no-op) class of R70: `w` is the whole word. -/
  | unknown (w : Word)
deriving DecidableEq, Repr

/-- The same instruction with the bits of R69 that no meaning reads at the values an assembler emits (R74, R75). -/
def Instr.canonical (i : Instr) : Instr :=
  match i with
  | .cls _ => .cls 0
  | .ret _ => .ret 0
  | .seReg x y _ => .seReg x y 0
  | .sneReg x y _ => .sneReg x y 0
  | .shr x _ => .shr x 0
  | .shl x _ => .shl x 0
  | .unknown _ => .unknown 0
  | .jp nnn => .jp nnn
  | .call nnn => .call nnn
  | .seImm x nn => .seImm x nn
  | .sneImm x nn => .sneImm x nn
  | .ldImm x nn => .ldImm x nn
  | .addImm x nn => .addImm x nn
  | .ldReg x y => .ldReg x y
  | .orReg x y => .orReg x y
  | .andReg x y => .andReg x y
  | .xorReg x y => .xorReg x y
  | .addReg x y => .addReg x y
  | .subReg x y => .subReg x y
  | .subnReg x y => .subnReg x y
  | .ldI nnn => .ldI nnn
  | .jpV0 nnn => .jpV0 nnn
  | .rnd x nn => .rnd x nn
  | .drw x y n => .drw x y n
  | .skp x => .skp x
  | .sknp x => .sknp x
  | .ldVxDT x => .ldVxDT x
  | .ldVxK x => .ldVxK x
  | .ldDTVx x => .ldDTVx x
  | .ldSTVx x => .ldSTVx x
  | .addI x => .addI x
  | .ldF x => .ldF x
  | .ldB x => .ldB x
  | .storeRegs x => .storeRegs x
  | .loadRegs x => .loadRegs x

end Sys2Proof
end

