-- ==== Sys2Proof/WellFormed.lean ====
section
/-! DEFINITION. What makes an instruction term well formed. Every operand field is as wide as its field of the word
(spec/30_encoding.md R62), so its range needs no check; the one check left is that `unknown` carries a word of the UNKNOWN
class and not the word of an instruction (R70). -/

namespace Sys2Proof

/-- Low bytes of family 0xF that select an instruction (R68). -/
def familyFCodes : List Byte := [0x07, 0x0A, 0x15, 0x18, 0x1E, 0x29, 0x33, 0x55, 0x65]

/-- Low nibbles of family 0x8 that select no instruction (R66). -/
def family8Gaps : List Nibble := [0x8, 0x9, 0xA, 0xB, 0xC, 0xD, 0xF]

/-- The table of R70: is this one of the 13872 words of the UNKNOWN class? -/
def isUnknownWord (w : Word) : Bool :=
  let family := w.extractLsb' 12 4
  let low := w.extractLsb' 0 8
  (family == 0x0 && !(low == 0xE0 || low == 0xEE))
    || (family == 0x8 && family8Gaps.contains (w.extractLsb' 0 4))
    || (family == 0xE && !(low == 0x9E || low == 0xA1))
    || (family == 0xF && !familyFCodes.contains low)

/-- An instruction term that stands for some word: only `unknown` can fail it. -/
def Instr.wf (i : Instr) : Bool :=
  match i with
  | .unknown w => isUnknownWord w
  | .cls _ | .ret _ | .jp _ | .call _ | .seImm _ _ | .sneImm _ _ | .seReg _ _ _ | .ldImm _ _ | .addImm _ _
  | .ldReg _ _ | .orReg _ _ | .andReg _ _ | .xorReg _ _ | .addReg _ _ | .subReg _ _ | .shr _ _ | .subnReg _ _
  | .shl _ _ | .sneReg _ _ _ | .ldI _ | .jpV0 _ | .rnd _ _ | .drw _ _ _ | .skp _ | .sknp _ | .ldVxDT _ | .ldVxK _
  | .ldDTVx _ | .ldSTVx _ | .addI _ | .ldF _ | .ldB _ | .storeRegs _ | .loadRegs _ => true

end Sys2Proof
end

