-- ==== Sys2Proof/Decode.lean ====
section
/-! DEFINITION. The decoder (spec/30_encoding.md R60 to R70) and, after it, the encoder (R61, R73, R74) and the opcode map of
R73 as a table. The decoder is the two-level dispatch of R64, total on all 65536 words; on bytes the one thing it rejects is an
instruction cut short. -/

namespace Sys2Proof

/-! ### Fields of the instruction word (R62) -/

/-- `w[15:12]`, the primary opcode family. -/
def famOf (w : Word) : Nibble := w.extractLsb' 12 4

/-- `w[11:8]`. -/
def xOf (w : Word) : RegIdx := w.extractLsb' 8 4

/-- `w[7:4]`. -/
def yOf (w : Word) : RegIdx := w.extractLsb' 4 4

/-- `w[3:0]`, an immediate or the secondary code of family 0x8. -/
def nOf (w : Word) : Nibble := w.extractLsb' 0 4

/-- `w[7:0]`, an immediate or the secondary code of families 0x0, 0xE and 0xF. -/
def nnOf (w : Word) : Byte := w.extractLsb' 0 8

/-- `w[11:0]`, an address. -/
def nnnOf (w : Word) : Addr12 := w.extractLsb' 0 12

/-! ### The decoder -/

/-- Family 0x0, by low byte (R65); 0NNN is no instruction here (R71). -/
def decodeFamily0 (w : Word) : Instr :=
  match nnOf w with
  | 0xE0#8 => .cls (xOf w)
  | 0xEE#8 => .ret (xOf w)
  | _ => .unknown w

/-- Family 0x8, by low nibble (R66). -/
def decodeFamily8 (w : Word) : Instr :=
  match nOf w with
  | 0x0#4 => .ldReg (xOf w) (yOf w)
  | 0x1#4 => .orReg (xOf w) (yOf w)
  | 0x2#4 => .andReg (xOf w) (yOf w)
  | 0x3#4 => .xorReg (xOf w) (yOf w)
  | 0x4#4 => .addReg (xOf w) (yOf w)
  | 0x5#4 => .subReg (xOf w) (yOf w)
  | 0x6#4 => .shr (xOf w) (yOf w)
  | 0x7#4 => .subnReg (xOf w) (yOf w)
  | 0xE#4 => .shl (xOf w) (yOf w)
  | _ => .unknown w

/-- Family 0xE, by low byte (R67). -/
def decodeFamilyE (w : Word) : Instr :=
  match nnOf w with
  | 0x9E#8 => .skp (xOf w)
  | 0xA1#8 => .sknp (xOf w)
  | _ => .unknown w

/-- Family 0xF, by low byte (R68). -/
def decodeFamilyF (w : Word) : Instr :=
  match nnOf w with
  | 0x07#8 => .ldVxDT (xOf w)
  | 0x0A#8 => .ldVxK (xOf w)
  | 0x15#8 => .ldDTVx (xOf w)
  | 0x18#8 => .ldSTVx (xOf w)
  | 0x1E#8 => .addI (xOf w)
  | 0x29#8 => .ldF (xOf w)
  | 0x33#8 => .ldB (xOf w)
  | 0x55#8 => .storeRegs (xOf w)
  | 0x65#8 => .loadRegs (xOf w)
  | _ => .unknown w

/-- The two-level lookup of R64: the family by top nibble, then a secondary lookup for families 0x0, 0x8, 0xE, 0xF. -/
def decode (w : Word) : Instr :=
  match famOf w with
  | 0x0#4 => decodeFamily0 w
  | 0x1#4 => .jp (nnnOf w)
  | 0x2#4 => .call (nnnOf w)
  | 0x3#4 => .seImm (xOf w) (nnOf w)
  | 0x4#4 => .sneImm (xOf w) (nnOf w)
  | 0x5#4 => .seReg (xOf w) (yOf w) (nOf w)
  | 0x6#4 => .ldImm (xOf w) (nnOf w)
  | 0x7#4 => .addImm (xOf w) (nnOf w)
  | 0x8#4 => decodeFamily8 w
  | 0x9#4 => .sneReg (xOf w) (yOf w) (nOf w)
  | 0xA#4 => .ldI (nnnOf w)
  | 0xB#4 => .jpV0 (nnnOf w)
  | 0xC#4 => .rnd (xOf w) (nnOf w)
  | 0xD#4 => .drw (xOf w) (yOf w) (nOf w)
  | 0xE#4 => decodeFamilyE w
  | _ => decodeFamilyF w

/-- The word two consecutive bytes make: the byte at the lower address is the high one (R43, R60). -/
def wordOfBytes (hi lo : Byte) : Word := hi ++ lo

/-- Why a byte string starts with no instruction. -/
inductive DecodeError where
  /-- Fewer than two bytes are left (R60: every instruction is exactly 16 bits). -/
  | truncated
deriving DecidableEq, Repr

/-- The decoder on bytes: the first instruction and the bytes after it. -/
def decodeBytes (bytes : List Byte) : Except DecodeError (Instr × List Byte) :=
  match bytes with
  | hi :: lo :: rest => .ok (decode (wordOfBytes hi lo), rest)
  | [_] => .error .truncated
  | [] => .error .truncated

/-- What the decoder reads from the table word `w` of `nbits` bits, laid out as the hardware stores it (R43). -/
def decodeTableWord (nbits w : Nat) : Option Instr :=
  if nbits ≤ 16 ∧ w < 65536 then
    match decodeBytes [BitVec.ofNat 8 (w / 256), BitVec.ofNat 8 w] with
    | .ok (i, _) => some i
    | .error _ => none
  else none

/-! ### The encoder -/

/-- Format `NNN` (R61). -/
def wordNNN (fam : Nibble) (nnn : Addr12) : Word := fam ++ nnn

/-- Format `XNN`, and `X` and `Z` with the secondary code in the low byte (R61). -/
def wordXNN (fam : Nibble) (x : RegIdx) (nn : Byte) : Word := fam ++ x ++ nn

/-- Format `XYN`, and `XY` with the secondary code in the low nibble (R61). -/
def wordXYN (fam : Nibble) (x y : RegIdx) (n : Nibble) : Word := fam ++ x ++ y ++ n

/-- The word of an instruction (the Encoding line of its rule; R73). -/
def encode (i : Instr) : Word :=
  match i with
  | .cls u => wordXNN 0x0 u 0xE0
  | .ret u => wordXNN 0x0 u 0xEE
  | .jp nnn => wordNNN 0x1 nnn
  | .call nnn => wordNNN 0x2 nnn
  | .seImm x nn => wordXNN 0x3 x nn
  | .sneImm x nn => wordXNN 0x4 x nn
  | .seReg x y u => wordXYN 0x5 x y u
  | .ldImm x nn => wordXNN 0x6 x nn
  | .addImm x nn => wordXNN 0x7 x nn
  | .ldReg x y => wordXYN 0x8 x y 0x0
  | .orReg x y => wordXYN 0x8 x y 0x1
  | .andReg x y => wordXYN 0x8 x y 0x2
  | .xorReg x y => wordXYN 0x8 x y 0x3
  | .addReg x y => wordXYN 0x8 x y 0x4
  | .subReg x y => wordXYN 0x8 x y 0x5
  | .shr x y => wordXYN 0x8 x y 0x6
  | .subnReg x y => wordXYN 0x8 x y 0x7
  | .shl x y => wordXYN 0x8 x y 0xE
  | .sneReg x y u => wordXYN 0x9 x y u
  | .ldI nnn => wordNNN 0xA nnn
  | .jpV0 nnn => wordNNN 0xB nnn
  | .rnd x nn => wordXNN 0xC x nn
  | .drw x y n => wordXYN 0xD x y n
  | .skp x => wordXNN 0xE x 0x9E
  | .sknp x => wordXNN 0xE x 0xA1
  | .ldVxDT x => wordXNN 0xF x 0x07
  | .ldVxK x => wordXNN 0xF x 0x0A
  | .ldDTVx x => wordXNN 0xF x 0x15
  | .ldSTVx x => wordXNN 0xF x 0x18
  | .addI x => wordXNN 0xF x 0x1E
  | .ldF x => wordXNN 0xF x 0x29
  | .ldB x => wordXNN 0xF x 0x33
  | .storeRegs x => wordXNN 0xF x 0x55
  | .loadRegs x => wordXNN 0xF x 0x65
  | .unknown w => w

/-- The two bytes of a word in the order of their addresses (R43). -/
def bytesOfWord (w : Word) : List Byte := [w.extractLsb' 8 8, w.extractLsb' 0 8]

/-- The bytes of an instruction in memory. -/
def encodeBytes (i : Instr) : List Byte := bytesOfWord (encode i)

/-- The canonical word, the one an assembler emits (R69, R74). -/
def assemble (i : Instr) : Word := encode i.canonical

/-! ### The opcode map as a table (R73) -/

/-- One row of R73: the mnemonic as opcode_table.json spells it, the mask and the match. -/
structure OpcodeRow where
  mnemonic : String
  mask : Word
  pat : Word
deriving DecidableEq, Repr

/-- Rows 00E0 to 7XNN of R73. -/
def opcodeRowsLow : List OpcodeRow :=
  [⟨"CLS", 0xF0FF, 0x00E0⟩, ⟨"RET", 0xF0FF, 0x00EE⟩, ⟨"JP_nnn", 0xF000, 0x1000⟩, ⟨"CALL_nnn", 0xF000, 0x2000⟩,
   ⟨"SE_Vx__nn", 0xF000, 0x3000⟩, ⟨"SNE_Vx__nn", 0xF000, 0x4000⟩, ⟨"SE_Vx__Vy", 0xF000, 0x5000⟩,
   ⟨"LD_Vx__nn", 0xF000, 0x6000⟩, ⟨"ADD_Vx__nn", 0xF000, 0x7000⟩]

/-- Rows 8XY0 to DXYN of R73. -/
def opcodeRowsMid : List OpcodeRow :=
  [⟨"LD_Vx__Vy", 0xF00F, 0x8000⟩, ⟨"OR_Vx__Vy", 0xF00F, 0x8001⟩, ⟨"AND_Vx__Vy", 0xF00F, 0x8002⟩,
   ⟨"XOR_Vx__Vy", 0xF00F, 0x8003⟩, ⟨"ADD_Vx__Vy", 0xF00F, 0x8004⟩, ⟨"SUB_Vx__Vy", 0xF00F, 0x8005⟩,
   ⟨"SHR_Vx", 0xF00F, 0x8006⟩, ⟨"SUBN_Vx__Vy", 0xF00F, 0x8007⟩, ⟨"SHL_Vx", 0xF00F, 0x800E⟩,
   ⟨"SNE_Vx__Vy", 0xF000, 0x9000⟩, ⟨"LD_I__nnn", 0xF000, 0xA000⟩, ⟨"JP_V0__nnn", 0xF000, 0xB000⟩,
   ⟨"RND_Vx__nn", 0xF000, 0xC000⟩, ⟨"DRW_Vx__Vy__n", 0xF000, 0xD000⟩]

/-- Rows EX9E to FX65 of R73. -/
def opcodeRowsHigh : List OpcodeRow :=
  [⟨"SKP_Vx", 0xF0FF, 0xE09E⟩, ⟨"SKNP_Vx", 0xF0FF, 0xE0A1⟩, ⟨"LD_Vx__DT", 0xF0FF, 0xF007⟩,
   ⟨"LD_Vx__K", 0xF0FF, 0xF00A⟩, ⟨"LD_DT__Vx", 0xF0FF, 0xF015⟩, ⟨"LD_ST__Vx", 0xF0FF, 0xF018⟩,
   ⟨"ADD_I__Vx", 0xF0FF, 0xF01E⟩, ⟨"LD_F__Vx", 0xF0FF, 0xF029⟩, ⟨"LD_B__Vx", 0xF0FF, 0xF033⟩,
   ⟨"LD__I___Vx", 0xF0FF, 0xF055⟩, ⟨"LD_Vx___I", 0xF0FF, 0xF065⟩]

/-- The 34 instruction rows of R73, in the table's order. -/
def opcodeMap : List OpcodeRow := opcodeRowsLow ++ opcodeRowsMid ++ opcodeRowsHigh

/-- The row a word decodes to by the table (`(w & mask) = match`), none for the UNKNOWN class. -/
def rowOf (w : Word) : Option OpcodeRow := opcodeMap.find? (fun r => w &&& r.mask == r.pat)

/-- The mnemonic of an instruction as opcode_table.json spells it (R74: notation from general knowledge; log 28). -/
def Instr.mnemonic (i : Instr) : String :=
  match i with
  | .cls _ => "CLS"
  | .ret _ => "RET"
  | .jp _ => "JP_nnn"
  | .call _ => "CALL_nnn"
  | .seImm _ _ => "SE_Vx__nn"
  | .sneImm _ _ => "SNE_Vx__nn"
  | .seReg _ _ _ => "SE_Vx__Vy"
  | .ldImm _ _ => "LD_Vx__nn"
  | .addImm _ _ => "ADD_Vx__nn"
  | .ldReg _ _ => "LD_Vx__Vy"
  | .orReg _ _ => "OR_Vx__Vy"
  | .andReg _ _ => "AND_Vx__Vy"
  | .xorReg _ _ => "XOR_Vx__Vy"
  | .addReg _ _ => "ADD_Vx__Vy"
  | .subReg _ _ => "SUB_Vx__Vy"
  | .shr _ _ => "SHR_Vx"
  | .subnReg _ _ => "SUBN_Vx__Vy"
  | .shl _ _ => "SHL_Vx"
  | .sneReg _ _ _ => "SNE_Vx__Vy"
  | .ldI _ => "LD_I__nnn"
  | .jpV0 _ => "JP_V0__nnn"
  | .rnd _ _ => "RND_Vx__nn"
  | .drw _ _ _ => "DRW_Vx__Vy__n"
  | .skp _ => "SKP_Vx"
  | .sknp _ => "SKNP_Vx"
  | .ldVxDT _ => "LD_Vx__DT"
  | .ldVxK _ => "LD_Vx__K"
  | .ldDTVx _ => "LD_DT__Vx"
  | .ldSTVx _ => "LD_ST__Vx"
  | .addI _ => "ADD_I__Vx"
  | .ldF _ => "LD_F__Vx"
  | .ldB _ => "LD_B__Vx"
  | .storeRegs _ => "LD__I___Vx"
  | .loadRegs _ => "LD_Vx___I"
  | .unknown _ => "NOP__UNKNOWN_class"

end Sys2Proof
end

