-- ==== Sys2Proof/Config.lean ====
section
/-! DEFINITION. The parameters the source fixes for this hardware (spec/00_scope.md R5), and the one value it leaves free:
the random bytes (R6, spec/93_implementation_defined.md U9). The font, the one open parameter with a default, is
`Sys2Proof.Machine.fontTable`. -/

namespace Sys2Proof.Config

/-- `MEM_SIZE`: addresses 0x000 to 0xFFF. -/
abbrev memSize : Nat := 4096

/-- `NREG`: V0 to VF. -/
abbrev nReg : Nat := 16

/-- `I_WIDTH`: the bits of `I`. -/
abbrev iWidth : Nat := 16

/-- `PC_WIDTH`: the bits of `PC`. -/
abbrev pcWidth : Nat := 16

/-- `STACK_DEPTH`. -/
abbrev stackDepth : Nat := 16

/-- `STACK_ENTRY_WIDTH`: the bits of a call-stack slot, which holds a value of `PC`. -/
abbrev stackEntryWidth : Nat := 16

/-- `TIMER_WIDTH`: the bits of `DT` and of `ST`. -/
abbrev timerWidth : Nat := 8

/-- `FB_W`: columns of the framebuffer. -/
abbrev fbW : Nat := 64

/-- `FB_H`: rows of the framebuffer. -/
abbrev fbH : Nat := 32

/-- `NKEYS`. -/
abbrev nKeys : Nat := 16

/-- `FONT_BASE`: where glyph 0 starts. -/
abbrev fontBase : Nat := 0x050

/-- `FONT_GLYPH_BYTES`: one byte for each row of a glyph. -/
abbrev fontGlyphBytes : Nat := 5

/-- `FONT_BYTES`: 16 glyphs of 5 bytes. -/
abbrev fontBytes : Nat := 80

/-- `PROG_BASE`: where a ROM is loaded, and the reset value of `PC`. -/
abbrev progBase : Nat := 0x200

/-- `ROM_MAX`: 4096 - 0x200 bytes. -/
abbrev romMax : Nat := 3584

/-- `INSTR_BYTES`: the length of every instruction. -/
abbrev instrBytes : Nat := 2

/-- FREE VALUE (log 2): the host's source of randomness, as a stream of bytes nothing constrains (R113: "a claim about a
program must hold for every value 0 to 255 of every draw"). Byte 0 is the `rand` of the state after
reset, and byte n the `rand` that follows the n-th executed CXNN, where the host supplies none itself. -/
opaque randByte : Nat → Byte

end Sys2Proof.Config
end

