-- ==== Sys2Proof/Machine/Memory.lean ====
section
/-! DEFINITION. The one memory (spec/20_memory.md): 4096 bytes as a list of cells in one canonical form over the reset
contents, the font, and the single-byte primitives R46, R47 with everything wider built from them. -/

namespace Sys2Proof.Machine

/-! ### The reset contents -/

/-- Glyphs 0 to 7 of the font: the default of R183, PRESUMED (the customary CHIP-8 font; log 3). -/
def fontGlyphs0to7 : List Byte :=
  [0xF0, 0x90, 0x90, 0x90, 0xF0,   0x20, 0x60, 0x20, 0x20, 0x70,
   0xF0, 0x10, 0xF0, 0x80, 0xF0,   0xF0, 0x10, 0xF0, 0x10, 0xF0,
   0x90, 0x90, 0xF0, 0x10, 0x10,   0xF0, 0x80, 0xF0, 0x10, 0xF0,
   0xF0, 0x80, 0xF0, 0x90, 0xF0,   0xF0, 0x10, 0x20, 0x40, 0x40]

/-- Glyphs 8 to F of the font: the default of R183, PRESUMED (log 3). -/
def fontGlyphs8toF : List Byte :=
  [0xF0, 0x90, 0xF0, 0x90, 0xF0,   0xF0, 0x90, 0xF0, 0x10, 0xF0,
   0xF0, 0x90, 0xF0, 0x90, 0x90,   0xE0, 0x90, 0xE0, 0x90, 0xE0,
   0xF0, 0x80, 0x80, 0x80, 0xF0,   0xE0, 0x90, 0x90, 0x90, 0xE0,
   0xF0, 0x80, 0xF0, 0x80, 0xF0,   0xF0, 0x80, 0xF0, 0x80, 0x80]

/-- `FONT[0..79]`, the parameter of R183. -/
def fontTable : List Byte := fontGlyphs0to7 ++ fontGlyphs8toF

/-- What an unlisted address reads as: the reset contents, `FONT` at 0x050 to 0x09F and 0 elsewhere (R180, R29). -/
def initialByte (a : Nat) : Byte :=
  if Config.fontBase ≤ a ∧ a < Config.fontBase + Config.fontBytes then fontTable.getD (a - Config.fontBase) 0 else 0

/-! ### Representation -/

/-- Memory as the cells that differ from the reset contents, by rising address. -/
abbrev Memory := List Host.Cell

/-- The canonical form above `lo`: addresses strictly rising from `lo`, inside memory, and no entry equal to what an
unlisted address reads as. -/
def Memory.wfFrom (lo : Nat) : Memory → Bool
  | [] => true
  | (a, b) :: m => decide (lo ≤ a) && decide (a < Config.memSize) && b != initialByte a && Memory.wfFrom (a + 1) m

/-- The canonical form: equal memories are equal lists. -/
def Memory.wf (m : Memory) : Bool := Memory.wfFrom 0 m

/-- The listed byte at an address, if there is one. -/
def Memory.lookup (a : Nat) : Memory → Option Byte
  | [] => none
  | (k, b) :: m => if k = a then some b else Memory.lookup a m

/-- The cell that stands for byte `b` at `a`: none where `b` is what an unlisted address reads as. -/
def Memory.cell (a : Nat) (b : Byte) : Memory := if b = initialByte a then [] else [(a, b)]

/-- Put byte `b` at `a`, keeping the canonical form. -/
def Memory.put (a : Nat) (b : Byte) : Memory → Memory
  | [] => Memory.cell a b
  | (k, c) :: m =>
    if a < k then Memory.cell a b ++ (k, c) :: m
    else if a = k then Memory.cell a b ++ m
    else (k, c) :: Memory.put a b m

/-! ### Primitives -/

/-- `MemRead(a, 1)` (R46): `none` outside memory, where the primitive is not defined. -/
def Memory.read (m : Memory) (a : Nat) : Option Byte :=
  if a < Config.memSize then some ((m.lookup a).getD (initialByte a)) else none

/-- `MemRead(a, 2)` (R46, R43): big-endian, the high byte at the lower address. -/
def Memory.readWord (m : Memory) (a : Nat) : Option Word :=
  match m.read a, m.read (a + 1) with
  | some hi, some lo => some (hi ++ lo)
  | _, _ => none

/-- `MemWrite(a, 1, b)` (R47): `none` outside memory, where the primitive is not defined. -/
def Memory.write (m : Memory) (a : Nat) (b : Byte) : Option Memory :=
  if a < Config.memSize then some (m.put a b) else none

/-- `n` single-byte reads at ascending addresses from `a` (R49). -/
def Memory.readBytes (m : Memory) (a : Nat) : Nat → Option (List Byte)
  | 0 => some []
  | n + 1 =>
    match m.read a, m.readBytes (a + 1) n with
    | some b, some bs => some (b :: bs)
    | _, _ => none

/-- Single-byte writes at ascending addresses from `a` (R49). -/
def Memory.writeBytes (m : Memory) (a : Nat) : List Byte → Option Memory
  | [] => some m
  | b :: bs =>
    match m.write a b with
    | some m' => m'.writeBytes (a + 1) bs
    | none => none

end Sys2Proof.Machine
end

