-- ==== Sys2Proof/Machine/State.lean ====
section
/-! DEFINITION. The state (spec/10_state.md), plain data: the spec's aggregate, and beside it the fields that are the model's
own (the returned status, the sticky fault bit of D11, the random input). -/

namespace Sys2Proof.Machine

/-- The key-wait state of FX0A (R24). -/
inductive KeyWait where
  /-- Normal execution. -/
  | idle
  /-- Key `k` was seen down and its release is awaited. -/
  | capturedPress (k : Key)
deriving DecidableEq, Repr

/-- What an operation returns (R157); an error is such a value and nothing else (R150). -/
inductive Status where
  /-- No error; every operation can return it. -/
  | ok
  /-- 2NNN with SP = 16 (R151). -/
  | stackOverflow
  /-- 00EE with SP = 0 (R152). -/
  | stackUnderflow
  /-- A name of the taxonomy that is never reported (R155). -/
  | unknownInstruction
  /-- `Step` with PC > 4094 (R153). -/
  | fetchOutOfRange
  /-- DXYN (N >= 1), FX33, FX55, FX65 past address 4095 (R154). -/
  | addressOutOfRange
  /-- EX9E, EXA1 with V[X] > 15 (R156). -/
  | keyIndexOutOfRange
  /-- `LoadROM` of more than 3584 bytes (R165). -/
  | romTooLarge
  /-- The host's file reader; the core never raises it (R166). -/
  | romReadFailure
deriving DecidableEq, Repr

/-- Why a step stops with a fault. No instruction failure is fatal (R83), so none of the spec's errors is one of these. -/
inductive Fault where
  /-- A single-byte access outside memory, where the primitives of R46 and R47 are not defined. Raised by the shared byte
  operations of Machine/Ops.lean only, if a caller did not check the range first; every caller does, so no step reaches it
  (log 23). Safe: the model stops and claims nothing. -/
  | noSuchAddress (a : Nat)
deriving DecidableEq, Repr

/-- Why the model gives no outcome. -/
inductive Refusal where
  /-- An arm of `exec` without a meaning; no arm is one. Safe. -/
  | notModelled (mnemonic : String)
  /-- `LoadROM` in a state that `Reset` did not produce: "a model should refuse it elsewhere" (R186). Raised by the host
  operation `loadROM`, by no instruction. Safe. -/
  | loadOutOfTurn
deriving DecidableEq, Repr

/-- The framebuffer as rows from the top, each of pixels from the left (R22): `FB[x][y]` is `fb[y][x]` (log 26). -/
abbrev Framebuffer := Vector (Vector Bool Config.fbW) Config.fbH

/-- The whole state the spec gives the machine (R10 to R30). -/
structure Aggregate where
  /-- `M`, the memory (R26). -/
  mem : Memory
  /-- `V[0..15]` (R10), `V[15]` being `VF` (R11). -/
  v : Vector Byte Config.nReg
  /-- `I`, the index register (R13). -/
  i : BitVec Config.iWidth
  /-- `PC` (R14). -/
  pc : BitVec Config.pcWidth
  /-- `SP`, the number of valid entries, 0 to 16 (R21). -/
  sp : Fin (Config.stackDepth + 1)
  /-- `S[0..15]` (R20). -/
  stack : Vector (BitVec Config.stackEntryWidth) Config.stackDepth
  /-- `DT`, the delay timer (R18). -/
  dt : BitVec Config.timerWidth
  /-- `ST`, the sound timer (R19). -/
  st : BitVec Config.timerWidth
  /-- `FB` (R22). -/
  fb : Framebuffer
  /-- `K`, the key snapshot, bit `k` set when key `k` is down (R23). -/
  keys : BitVec Config.nKeys
  /-- `KW` (R24). -/
  kw : KeyWait
deriving DecidableEq, Repr

/-- The machine's aggregate and the model's own fields. -/
structure State extends Aggregate where
  /-- The value the last operation returned (R84); an output, read by no operation (R25; log 1). -/
  status : Status
  /-- Some operation so far returned an error: the sticky bit of D11, read by no operation (log 1). -/
  faulted : Bool
  /-- The input `rand` of the next `Step` (R113), a free value (log 2). -/
  rand : Byte
  /-- How many bytes of the free stream `Config.randByte` have been drawn (log 2). -/
  draws : Nat
deriving DecidableEq, Repr

/-- The aggregate `Reset` constructs (R180, R29): memory lists nothing, so it reads as its reset contents. -/
def Aggregate.reset : Aggregate where
  mem := []
  v := Vector.replicate Config.nReg 0
  i := 0
  pc := BitVec.ofNat Config.pcWidth Config.progBase
  sp := 0
  stack := Vector.replicate Config.stackDepth 0
  dt := 0
  st := 0
  fb := Vector.replicate Config.fbH (Vector.replicate Config.fbW false)
  keys := 0
  kw := .idle

/-- The state right after `Reset`; the model's own fields start at the values log 5 names. The first `rand` is a free value
like every later one: the first byte of the free stream (R113; log 2). -/
def State.reset : State where
  toAggregate := Aggregate.reset
  status := .ok
  faulted := false
  rand := Config.randByte 0
  draws := 1

end Sys2Proof.Machine
end

