-- ==== Sys2Proof/Machine/Flags.lean ====
section
/-! DEFINITION. The five flag computations of the ALU (spec/10_state.md R27, spec/42_alu.md R107 to R111, R114). The sixth
writer of VF, the collision detector, stands with the display in Display.lean. -/

namespace Sys2Proof.Machine

/-- A flag as the byte VF receives, 0 or 1. -/
def flagByte (b : Bool) : Byte := if b then 1 else 0

/-- 8XY4: the exact sum is above 255 (R107). -/
def carryFlag (x y : Byte) : Byte := flagByte (decide (x.toNat + y.toNat > 255))

/-- 8XY5 and 8XY7: the complement of borrow, so equal operands give 1 (R108, R110, R114). -/
def noBorrowFlag (minuend subtrahend : Byte) : Byte := flagByte (decide (minuend.toNat ≥ subtrahend.toNat))

/-- 8XY6: bit 0 before the shift (R109). -/
def lowBitFlag (x : Byte) : Byte := flagByte (x.getLsbD 0)

/-- 8XYE: bit 7 before the shift (R111). -/
def highBitFlag (x : Byte) : Byte := flagByte (x.getLsbD 7)

end Sys2Proof.Machine
end

