-- ==== Sys2Proof/Machine/Operands.lean ====
section
/-! DEFINITION. Operand forms: registers, immediates and what an instruction computes from them before it acts
(spec/30_encoding.md R62, R63; spec/43_index_memory.md; spec/45_keypad_timers.md R140, R143). -/

namespace Sys2Proof.Machine

/-- `V[r]`; a 4-bit index is always in range (R10). -/
def State.getV (s : State) (r : RegIdx) : Byte := s.v[r.toNat]'(by have := r.isLt; exact this)

/-- `V[0]` to `V[X]`, the implicit operand of FX55 (R124). -/
def State.regRange (s : State) (x : RegIdx) : List Byte := s.v.toList.take (x.toNat + 1)

/-- `zext_16(NNN)` as a value of `PC` (R63, R92, R94, R95). -/
def addrToPC (nnn : Addr12) : BitVec Config.pcWidth := nnn.setWidth Config.pcWidth

/-- `zext_16(NNN)` as a value of `I` (R63, R120). -/
def addrToI (nnn : Addr12) : BitVec Config.iWidth := nnn.setWidth Config.iWidth

/-- `zext_16` of a byte added to an address for `PC` (R95). -/
def byteToPC (b : Byte) : BitVec Config.pcWidth := b.setWidth Config.pcWidth

/-- `zext_16` of a byte added to `I` (R121). -/
def byteToI (b : Byte) : BitVec Config.iWidth := b.setWidth Config.iWidth

/-- A key code as the byte FX0A delivers, 0 to 15 (R144). -/
def zextKey (k : Key) : Byte := k.setWidth 8

/-- `0x0050 + 5 * zext_16(b)`, the address of glyph `b`; `b` is not masked (R122). -/
def glyphAddress (b : Byte) : BitVec Config.iWidth :=
  BitVec.ofNat Config.iWidth (Config.fontBase + Config.fontGlyphBytes * b.toNat)

/-- The decimal digits of a byte as hundreds, tens, units, each a binary number in its own byte (R123). -/
def bcdDigits (b : Byte) : List Byte :=
  [BitVec.ofNat 8 (b.toNat / 100), BitVec.ofNat 8 (b.toNat / 10 % 10), BitVec.ofNat 8 (b.toNat % 10)]

/-- The key a register's whole 8-bit value names, none above 15 (R140). -/
def keyOfByte (b : Byte) : Option Key := if b.toNat ≥ Config.nKeys then none else some (b.setWidth 4)

/-- `K[k] = 1` (R23). -/
def keyDown (keys : BitVec Config.nKeys) (k : Key) : Bool := keys.getLsbD k.toNat

/-- Every key code, ascending. -/
def allKeys : List Key := [0x0, 0x1, 0x2, 0x3, 0x4, 0x5, 0x6, 0x7, 0x8, 0x9, 0xA, 0xB, 0xC, 0xD, 0xE, 0xF]

/-- `LowestKey(K)` (R143), none when no key is down. -/
def lowestKey (keys : BitVec Config.nKeys) : Option Key := allKeys.find? (keyDown keys)

/-- `x0`, the column DXYN starts at (R131). -/
def originX (b : Byte) : Nat := b.toNat % Config.fbW

/-- `y0`, the row DXYN starts at (R131). -/
def originY (b : Byte) : Nat := b.toNat % Config.fbH

/-- `InRange(lo, hi)`, computed in unbounded integers (R8, R48). -/
def inRange (lo hi : Nat) : Bool := decide (0 ≤ lo ∧ hi ≤ Config.memSize - 1)

end Sys2Proof.Machine
end

