-- ==== Sys2Proof/Machine/Ops.lean ====
section
/-! DEFINITION. The named operations the meanings are made of: registers, the call stack (spec/41_control_flow.md R90, R91),
checked memory access (spec/20_memory.md R48), fetch and PC advance (spec/40_cycle_and_nop.md R81, R82), and `raise`, the
machine's one way to report an error (spec/00_scope.md R7, spec/60_exceptions.md R150). -/

namespace Sys2Proof.Machine

/-- The outcome of an instruction. -/
abbrev Result := Host.Outcome State Fault Refusal

/-! ### Errors -/

/-- The code of a status (R157). -/
def Status.code (e : Status) : Nat :=
  match e with
  | .ok => 0
  | .stackOverflow => 1
  | .stackUnderflow => 2
  | .unknownInstruction => 3
  | .fetchOutOfRange => 4
  | .addressOutOfRange => 5
  | .keyIndexOutOfRange => 6
  | .romTooLarge => 16
  | .romReadFailure => 17

/-- `raise E`: the operation returns status `E` and changes nothing else (R7, R150). There is no handler, nothing is saved,
and PC keeps the value it has, which inside an instruction is the advanced one (R83). -/
def raise (e : Status) (s : State) : Result := .next { s with status := e, faulted := true }

/-! ### General registers -/

/-- `V[r] <- b` (R10). -/
def State.setV (s : State) (r : RegIdx) (b : Byte) : State :=
  { s with v := s.v.set r.toNat b (by have := r.isLt; exact this) }

/-- The two writes of a flag-setting instruction in their order, VF and then V[X], so that the result wins when X = 0xF
(R100). -/
def State.setFlagged (s : State) (x : RegIdx) (flag result : Byte) : State := (s.setV regF flag).setV x result

/-- Bytes written to registers `j`, `j + 1`, ... in ascending order (R126). -/
def writeRegsFrom (j : Nat) (bytes : List Byte) (v : Vector Byte Config.nReg) : Vector Byte Config.nReg :=
  match bytes with
  | [] => v
  | b :: bs => writeRegsFrom (j + 1) bs (v.setIfInBounds j b)

/-! ### Program counter -/

/-- The length of an instruction as a value of `PC` (R60). -/
def instrStep : BitVec Config.pcWidth := BitVec.ofNat Config.pcWidth Config.instrBytes

/-- The universal PC advance after a fetch; the operation's status is OK until something is raised (R82, R7). -/
def State.advance (s : State) : State := { s with pc := s.pc + instrStep, status := .ok }

/-- `Skip()` (R91). -/
def State.skip (s : State) : State := { s with pc := s.pc + instrStep }

/-- `Skip()` when the condition holds (R96 to R99). -/
def State.skipIf (c : Bool) (s : State) : State := if c then s.skip else s

/-- `PC <- PC - INSTR_BYTES`, how a waiting FX0A stays where it is (R144). -/
def State.stay (s : State) : State := { s with pc := s.pc - instrStep }

/-- Are both bytes of the next instruction inside memory (R44, R81)? Parity is not asked (R45; log 9). -/
def State.fetchable (s : State) : Bool := decide (s.pc.toNat ≤ Config.memSize - Config.instrBytes)

/-- The instruction word at PC (R43, R80). -/
def State.fetchWord (s : State) : Option Word := s.mem.readWord s.pc.toNat

/-! ### The call stack (R90) -/

/-- `Push(a)`, or `none` on a full stack, where a push does not happen. -/
def State.push (s : State) (a : BitVec Config.stackEntryWidth) : Option State :=
  if h : s.sp.val < Config.stackDepth then
    some { s with stack := s.stack.set s.sp.val a h, sp := ⟨s.sp.val + 1, Nat.succ_lt_succ h⟩ }
  else none

/-- `Pop()`: the popped value and the state after it, or `none` on an empty stack, where a pop does not happen. The slot
keeps its value (R20). -/
def State.pop (s : State) : Option (BitVec Config.stackEntryWidth × State) :=
  match s.sp with
  | ⟨0, _⟩ => none
  | ⟨n + 1, h⟩ =>
    some (s.stack[n]'(Nat.lt_of_succ_lt_succ h), { s with sp := ⟨n, Nat.lt_of_succ_lt h⟩ })

/-! ### Memory -/

/-- Run `k` if addresses `lo` to `hi` are inside memory; otherwise raise AddressOutOfRange with none of the effect (R48). -/
def checkRange (lo hi : Nat) (s : State) (k : State → Result) : Result :=
  if inRange lo hi then k s else raise .addressOutOfRange s

/-- Read `n` bytes at `a` and go on with them; a fault where the primitive is not defined (R46). -/
def withBytes (a n : Nat) (s : State) (k : List Byte → Result) : Result :=
  match s.mem.readBytes a n with
  | some bytes => k bytes
  | none => .fault (.noSuchAddress a)

/-- Write bytes at `a`; a fault where the primitive is not defined (R47). -/
def storeBytes (a : Nat) (bytes : List Byte) (s : State) : Result :=
  match s.mem.writeBytes a bytes with
  | some m => .next { s with mem := m }
  | none => .fault (.noSuchAddress a)

end Sys2Proof.Machine
end

