-- ==== Sys2Proof/Machine/Alu.lean ====
section
/-! DEFINITION. Register loads, the ALU and the random byte (spec/42_alu.md). Every operand is read from the state before the
instruction, then VF is written, then V[X] (R100). -/

namespace Sys2Proof.Machine

/-- 6XNN (R101). -/
def execLdImm (x : RegIdx) (nn : Byte) (s : State) : Result := .next (s.setV x nn)

/-- 7XNN (R102): modulo 256, no flag. -/
def execAddImm (x : RegIdx) (nn : Byte) (s : State) : Result := .next (s.setV x (s.getV x + nn))

/-- 8XY0 (R103). -/
def execLdReg (x y : RegIdx) (s : State) : Result := .next (s.setV x (s.getV y))

/-- 8XY1 (R104): VF is not written. -/
def execOrReg (x y : RegIdx) (s : State) : Result := .next (s.setV x (s.getV x ||| s.getV y))

/-- 8XY2 (R105): VF is not written. -/
def execAndReg (x y : RegIdx) (s : State) : Result := .next (s.setV x (s.getV x &&& s.getV y))

/-- 8XY3 (R106): VF is not written. -/
def execXorReg (x y : RegIdx) (s : State) : Result := .next (s.setV x (s.getV x ^^^ s.getV y))

/-- 8XY4 (R107). -/
def execAddReg (x y : RegIdx) (s : State) : Result :=
  .next (s.setFlagged x (carryFlag (s.getV x) (s.getV y)) (s.getV x + s.getV y))

/-- 8XY5 (R108). -/
def execSubReg (x y : RegIdx) (s : State) : Result :=
  .next (s.setFlagged x (noBorrowFlag (s.getV x) (s.getV y)) (s.getV x - s.getV y))

/-- 8XY6 (R109): V[X] is shifted, whatever Y. -/
def execShr (x : RegIdx) (s : State) : Result := .next (s.setFlagged x (lowBitFlag (s.getV x)) (s.getV x >>> 1))

/-- 8XY7 (R110). -/
def execSubnReg (x y : RegIdx) (s : State) : Result :=
  .next (s.setFlagged x (noBorrowFlag (s.getV y) (s.getV x)) (s.getV y - s.getV x))

/-- 8XYE (R111): V[X] is shifted, whatever Y. -/
def execShl (x : RegIdx) (s : State) : Result := .next (s.setFlagged x (highBitFlag (s.getV x)) (s.getV x <<< 1))

/-- CXNN (R112): consumes its step's `rand` (R113); the next one is a free value until the host supplies its own (log 2). -/
def execRnd (x : RegIdx) (nn : Byte) (s : State) : Result :=
  .next { s.setV x (s.rand &&& nn) with rand := Config.randByte s.draws, draws := s.draws + 1 }

end Sys2Proof.Machine
end

