-- ==== Sys2Proof/Machine/Control.lean ====
section
/-! DEFINITION. Control transfer and conditional skips (spec/41_control_flow.md). In every meaning PC already holds own
address + 2 (spec/40_cycle_and_nop.md R82). -/

namespace Sys2Proof.Machine

/-- 00EE (R93, R152). -/
def execRet (s : State) : Result :=
  match s.pop with
  | some (target, s') => .next { s' with pc := target }
  | none => raise .stackUnderflow s

/-- 1NNN (R92). -/
def execJp (nnn : Addr12) (s : State) : Result := .next { s with pc := addrToPC nnn }

/-- 2NNN (R94, R151). -/
def execCall (nnn : Addr12) (s : State) : Result :=
  match s.push s.pc with
  | some s' => .next { s' with pc := addrToPC nnn }
  | none => raise .stackOverflow s

/-- 3XNN (R96). -/
def execSeImm (x : RegIdx) (nn : Byte) (s : State) : Result := .next (s.skipIf (s.getV x == nn))

/-- 4XNN (R97). -/
def execSneImm (x : RegIdx) (nn : Byte) (s : State) : Result := .next (s.skipIf (s.getV x != nn))

/-- 5XY0 (R98). -/
def execSeReg (x y : RegIdx) (s : State) : Result := .next (s.skipIf (s.getV x == s.getV y))

/-- 9XY0 (R99). -/
def execSneReg (x y : RegIdx) (s : State) : Result := .next (s.skipIf (s.getV x != s.getV y))

/-- BNNN (R95): always V0, and the sum is not reduced. -/
def execJpV0 (nnn : Addr12) (s : State) : Result := .next { s with pc := addrToPC nnn + byteToPC (s.getV 0) }

/-- The UNKNOWN class (R86): nothing beyond the PC advance, whatever word the term carries (log 21). -/
def execUnknown (s : State) : Result := .next s

end Sys2Proof.Machine
end

