-- ==== Sys2Proof/Machine/Display.lean ====
section
/-! DEFINITION. The framebuffer, sprite draw and the collision detector (spec/44_display.md). -/

namespace Sys2Proof.Machine

/-- `FB[x][y]` (R22). -/
def Framebuffer.get (fb : Framebuffer) (x : Fin Config.fbW) (y : Fin Config.fbH) : Bool := fb[y][x]

/-- `FB[x][y] <- FB[x][y] ^ 1`. -/
def Framebuffer.toggle (fb : Framebuffer) (x : Fin Config.fbW) (y : Fin Config.fbH) : Framebuffer :=
  fb.set y (fb[y].set x (!fb[y][x]))

/-- All pixels off. -/
def Framebuffer.clear : Framebuffer := Vector.replicate Config.fbH (Vector.replicate Config.fbW false)

/-- What a draw changes as it goes: the framebuffer and whether a collision has been seen (R132). -/
structure Canvas where
  fb : Framebuffer
  hit : Bool
deriving DecidableEq, Repr

/-- One sprite bit at one pixel: a set bit flips it, and a pixel going from on to off is a collision (R131, R132). -/
def Canvas.plot (c : Canvas) (x : Fin Config.fbW) (y : Fin Config.fbH) (bit : Bool) : Canvas :=
  if bit then { fb := c.fb.toggle x y, hit := c.hit || c.fb.get x y } else c

/-- The bits of a sprite byte, bit 7 (the leftmost pixel) first (R131). -/
def spriteBits (b : Byte) : List Bool :=
  [b.getLsbD 7, b.getLsbD 6, b.getLsbD 5, b.getLsbD 4, b.getLsbD 3, b.getLsbD 2, b.getLsbD 1, b.getLsbD 0]

/-- The bits of one row from column `x` rightward, stopping at the right edge (R133). -/
def drawBits (y : Fin Config.fbH) (x : Nat) (bits : List Bool) (c : Canvas) : Canvas :=
  match bits with
  | [] => c
  | bit :: rest => if h : x < Config.fbW then drawBits y (x + 1) rest (c.plot ⟨x, h⟩ y bit) else c

/-- The rows of a sprite from row `y` downward, each from column `x0`, stopping at the bottom edge (R133). -/
def drawRows (x0 y : Nat) (rows : List Byte) (c : Canvas) : Canvas :=
  match rows with
  | [] => c
  | b :: rest => if h : y < Config.fbH then drawRows x0 (y + 1) rest (drawBits ⟨y, h⟩ x0 (spriteBits b) c) else c

/-- Draw the sprite rows with the origin `vx`, `vy` (reduced modulo the screen size, R131) and record the collision in VF. -/
def drawSprite (vx vy : Byte) (rows : List Byte) (s : State) : State :=
  let c := drawRows (originX vx) (originY vy) rows { fb := s.fb, hit := false }
  { s.setV regF (flagByte c.hit) with fb := c.fb }

/-- 00E0 (R130). -/
def execCls (s : State) : Result := .next { s with fb := Framebuffer.clear }

/-- DXYN (R131): the range check covers all N rows, and there is none for N = 0 (R49). -/
def execDrw (x y : RegIdx) (n : Nibble) (s : State) : Result :=
  if n = 0 then .next (drawSprite (s.getV x) (s.getV y) [] s)
  else checkRange s.i.toNat (s.i.toNat + n.toNat - 1) s fun s =>
    withBytes s.i.toNat n.toNat s fun rows => .next (drawSprite (s.getV x) (s.getV y) rows s)

end Sys2Proof.Machine
end

