-- ==== Sys2Proof/Machine/Index.lean ====
section
/-! DEFINITION. The index register, loads and stores (spec/43_index_memory.md). `I` is not modified by an instruction that uses
it as a base (R125). -/

namespace Sys2Proof.Machine

/-- ANNN (R120). -/
def execLdI (nnn : Addr12) (s : State) : Result := .next { s with i := addrToI nnn }

/-- FX1E (R121): modulo 65536, no flag. -/
def execAddI (x : RegIdx) (s : State) : Result := .next { s with i := s.i + byteToI (s.getV x) }

/-- FX29 (R122). -/
def execLdF (x : RegIdx) (s : State) : Result := .next { s with i := glyphAddress (s.getV x) }

/-- FX33 (R123). -/
def execLdB (x : RegIdx) (s : State) : Result :=
  checkRange s.i.toNat (s.i.toNat + 2) s (storeBytes s.i.toNat (bcdDigits (s.getV x)))

/-- FX55 (R124). -/
def execStoreRegs (x : RegIdx) (s : State) : Result :=
  checkRange s.i.toNat (s.i.toNat + x.toNat) s (storeBytes s.i.toNat (s.regRange x))

/-- FX65 (R126). -/
def execLoadRegs (x : RegIdx) (s : State) : Result :=
  checkRange s.i.toNat (s.i.toNat + x.toNat) s fun s =>
    withBytes s.i.toNat (x.toNat + 1) s fun bytes => .next { s with v := writeRegsFrom 0 bytes s.v }

end Sys2Proof.Machine
end

