-- ==== Sys2Proof/Machine/Keypad.lean ====
section
/-! DEFINITION. Key skips, the key-wait state machine and the timer registers (spec/45_keypad_timers.md). -/

namespace Sys2Proof.Machine

/-- The key skips: skip when the key V[X] names is in the wanted position; KeyIndexOutOfRange when it names none (R140). -/
def skipOnKey (x : RegIdx) (wanted : Bool) (s : State) : Result :=
  match keyOfByte (s.getV x) with
  | some k => .next (s.skipIf (keyDown s.keys k == wanted))
  | none => raise .keyIndexOutOfRange s

/-- EX9E (R141). -/
def execSkp (x : RegIdx) (s : State) : Result := skipOnKey x true s

/-- EXA1 (R142). -/
def execSknp (x : RegIdx) (s : State) : Result := skipOnKey x false s

/-- FX0A (R144): wait by re-execution for a key's press and then its release. -/
def execLdVxK (x : RegIdx) (s : State) : Result :=
  match s.kw with
  | .idle =>
    match lowestKey s.keys with
    | some k => .next { s.stay with kw := .capturedPress k }
    | none => .next s.stay
  | .capturedPress k =>
    if keyDown s.keys k then .next s.stay
    else .next { s.setV x (zextKey k) with kw := .idle }

/-- FX07 (R145). -/
def execLdVxDT (x : RegIdx) (s : State) : Result := .next (s.setV x s.dt)

/-- FX15 (R146). -/
def execLdDTVx (x : RegIdx) (s : State) : Result := .next { s with dt := s.getV x }

/-- FX18 (R148). -/
def execLdSTVx (x : RegIdx) (s : State) : Result := .next { s with st := s.getV x }

end Sys2Proof.Machine
end

