-- ==== Sys2Proof/Machine/Step.lean ====
section
/-! DEFINITION. `Step` (spec/40_cycle_and_nop.md R80): fetch, advance PC, decode, execute. -/

namespace Sys2Proof.Machine

/-- One `Step`, with the random byte the state holds. Out of fetch range it reports FetchOutOfRange and changes nothing (R81);
otherwise PC is advanced (R82) and the word fetched before the advance is decoded and executed. -/
def step (s : State) : Host.Outcome State Fault Refusal :=
  if s.fetchable then
    match s.fetchWord with
    | some w => exec (decode w) s.advance
    | none => .fault (.noSuchAddress s.pc.toNat)
  else raise .fetchOutOfRange s

/-- `Step(rand)` of R80, R113: the host supplies the random byte. -/
def stepWith (rand : Byte) (s : State) : Host.Outcome State Fault Refusal := step { s with rand := rand }

/-- The state with the instruction word `w` where the next step fetches: its two bytes at PC and PC + 1, high byte first
(R43). Where PC is past the last address a fetch can start at, PC is first set to 0x200 (log 24). -/
def State.withFetchWord (s : State) (_nbits w : Nat) : State :=
  let pc := if s.fetchable then s.pc else BitVec.ofNat Config.pcWidth Config.progBase
  let hi : Byte := BitVec.ofNat 8 (w / 256)
  let lo : Byte := BitVec.ofNat 8 w
  { s with pc := pc, mem := (s.mem.put pc.toNat hi).put (pc.toNat + 1) lo }

end Sys2Proof.Machine
end

