-- ==== Sys2Proof/Machine/HostOps.lean ====
section
/-! DEFINITION. The host's operations other than `Step` (spec/00_scope.md R4), each atomic and each between two steps
(spec/40_cycle_and_nop.md R85), and sequences of operations in any interleaving (spec/70_reset_and_hazards.md R194). -/

namespace Sys2Proof.Machine

/-- The operation returned OK. -/
def State.done (s : State) : State := { s with status := .ok }

/-- `Reset()` at any time (R180, R181): the aggregate is constructed anew, whatever it was. The model's own fields go on: the
sticky bit is never cleared and the free stream never repeats (log 27). -/
def resetOp (s : State) : State := { s with toAggregate := Aggregate.reset, status := .ok }

/-- `LoadROM(bytes)` (R185): RomTooLarge above 3584 bytes, else the bytes verbatim from 0x200. Refused in a state that
`Reset`, possibly with failed loads after it, did not produce (R186; log 17). -/
def loadROM (bytes : List Byte) (s : State) : Result :=
  if s.toAggregate = Aggregate.reset then
    if bytes.length > Config.romMax then raise .romTooLarge s
    else storeBytes Config.progBase bytes s.done
  else .refused .loadOutOfTurn

/-- One countdown: a timer at 0 stays 0 (R147; PRESUMED there, log 12). -/
def countDown (t : BitVec Config.timerWidth) : BitVec Config.timerWidth := if t.toNat > 0 then t - 1 else t

/-- `Tick()` (R147). -/
def tick (s : State) : State := { s with dt := countDown s.dt, st := countDown s.st, status := .ok }

/-- `SetKeys(keys)` (R168). -/
def setKeys (keys : BitVec Config.nKeys) (s : State) : State := { s with keys := keys, status := .ok }

/-- `PixelAt(x, y)` (R169); a call outside the screen cannot be written (U7; log 25). -/
def pixelAt (x : Fin Config.fbW) (y : Fin Config.fbH) (s : State) : Bool := s.fb.get x y

/-- `Tone()` (R170). -/
def tone (s : State) : Bool := decide (s.st.toNat > 0)

/-- An operation of R4 that can change state. -/
inductive HostOp where
  /-- `Reset()` -/
  | reset
  /-- `LoadROM(bytes)` -/
  | loadROM (bytes : List Byte)
  /-- `Step(rand)` -/
  | step (rand : Byte)
  /-- `Tick()` -/
  | tick
  /-- `SetKeys(keys)` -/
  | setKeys (keys : BitVec Config.nKeys)
deriving DecidableEq, Repr

/-- One operation. -/
def runOp (op : HostOp) (s : State) : Result :=
  match op with
  | .reset => .next (resetOp s)
  | .loadROM bytes => loadROM bytes s
  | .step rand => stepWith rand s
  | .tick => .next (tick s)
  | .setKeys keys => .next (setKeys keys s)

/-- A finite sequence of operations, stopping at the first that has no next state (R87: a run is such a sequence). -/
def runOps (ops : List HostOp) (s : State) : Result :=
  match ops with
  | [] => .next s
  | op :: rest =>
    match runOp op s with
    | .next s' => runOps rest s'
    | .fault r => .fault r
    | .refused r => .refused r

end Sys2Proof.Machine
end

