-- ==== Sys2Proof/Safety.lean ====
section
/-! DEFINITION. The terms claims are made in: a clean run, the invariants of spec/10_state.md R30, and the tables of who reads
and writes what (R12, R13, R15, R18 to R24, R27) written down beside the meanings, not from them: their
numbers are the spec's, so that a claim made in them also checks the constants of Config (R5). -/

namespace Sys2Proof.Machine

/-! ### Safe runs and invariants -/

/-- No operation so far reported an error (D11: a claim about a program assumes it). -/
def State.clean (s : State) : Bool := !s.faulted

/-- Memory is in its canonical form; in particular no cell outside the 4096 bytes is ever listed (R30, fourth line). -/
def State.memOk (s : State) : Prop := s.mem.wf = true

/-- PC is at most 0x10FE (R17, R30, second line), with what it takes to stay so: a return address on the stack is never above
0x1000. -/
def State.pcBounded (s : State) : Prop :=
  s.pc.toNat ≤ 0x10FE ∧ ∀ j : Fin Config.stackDepth, s.stack[j].toNat ≤ 0x1000

/-- A key wait is under way only where the next instruction is an FX0A (R30, third line; R144). -/
def State.keyWaitOk (s : State) : Prop :=
  s.kw = .idle ∨ ∃ w x, s.fetchWord = some w ∧ decode w = .ldVxK x

/-- The invariants together. -/
def State.Inv (s : State) : Prop := s.memOk ∧ s.pcBounded ∧ s.keyWaitOk

/-- From `s` to `t` nothing changed but V[x]. -/
def onlyRegister (x : RegIdx) (s t : State) : Prop :=
  (∀ r, r ≠ x → t.getV r = s.getV r) ∧ t = { s with v := t.v }

/-- From `s` to `t` nothing changed but V[x] and VF. -/
def onlyRegisterAndFlag (x : RegIdx) (s t : State) : Prop :=
  (∀ r, r ≠ x → r ≠ regF → t.getV r = s.getV r) ∧ t = { s with v := t.v }

/-! ### The encodings as each rule's Encoding line writes them -/

/-- `base | NNN`. -/
def orNNN (base : Word) (nnn : Addr12) : Word := base ||| nnn.setWidth 16

/-- `base | X << 8`. -/
def orX (base : Word) (x : RegIdx) : Word := base ||| x.setWidth 16 <<< 8

/-- `base | X << 8 | NN`. -/
def orXNN (base : Word) (x : RegIdx) (nn : Byte) : Word := base ||| x.setWidth 16 <<< 8 ||| nn.setWidth 16

/-- `base | X << 8 | Y << 4`. -/
def orXY (base : Word) (x y : RegIdx) : Word := base ||| x.setWidth 16 <<< 8 ||| y.setWidth 16 <<< 4

end Sys2Proof.Machine

/-! ### The tables -/

namespace Sys2Proof

/-- R12, third column, with the VF writes of R27. -/
def Instr.writesV (i : Instr) (r : RegIdx) : Bool :=
  match i with
  | .ldImm x _ | .addImm x _ | .ldReg x _ | .orReg x _ | .andReg x _ | .xorReg x _ | .rnd x _ | .ldVxDT x | .ldVxK x => r == x
  | .addReg x _ | .subReg x _ | .subnReg x _ | .shr x _ | .shl x _ => r == x || r == regF
  | .drw _ _ _ => r == regF
  | .loadRegs x => decide (r.toNat ≤ x.toNat)
  | .cls _ | .ret _ | .jp _ | .call _ | .seImm _ _ | .sneImm _ _ | .seReg _ _ _ | .sneReg _ _ _ | .ldI _ | .jpV0 _
  | .skp _ | .sknp _ | .ldDTVx _ | .ldSTVx _ | .addI _ | .ldF _ | .ldB _ | .storeRegs _ | .unknown _ => false

/-- R12, second column. -/
def Instr.readsV (i : Instr) (r : RegIdx) : Bool :=
  match i with
  | .seImm x _ | .sneImm x _ | .addImm x _ | .shr x _ | .shl x _ | .skp x | .sknp x | .ldDTVx x | .ldSTVx x | .addI x
  | .ldF x | .ldB x => r == x
  | .seReg x y _ | .sneReg x y _ | .orReg x y | .andReg x y | .xorReg x y | .addReg x y | .subReg x y | .subnReg x y
  | .drw x y _ => r == x || r == y
  | .ldReg _ y => r == y
  | .jpV0 _ => r == 0
  | .storeRegs x => decide (r.toNat ≤ x.toNat)
  | .cls _ | .ret _ | .jp _ | .call _ | .ldImm _ _ | .ldI _ | .rnd _ _ | .ldVxDT _ | .ldVxK _ | .loadRegs _
  | .unknown _ => false

/-- ANNN, FX1E and FX29 write I (R13). -/
def Instr.writesI (i : Instr) : Prop := (∃ nnn, i = .ldI nnn) ∨ (∃ x, i = .addI x) ∨ ∃ x, i = .ldF x

/-- 2NNN and 00EE write SP, and 2NNN the slots (R20, R21). -/
def Instr.usesStack (i : Instr) : Prop := (∃ nnn, i = .call nnn) ∨ ∃ u, i = .ret u

/-- 00E0 and DXYN write the framebuffer (R22). -/
def Instr.writesFB (i : Instr) : Prop := (∃ u, i = .cls u) ∨ ∃ x y n, i = .drw x y n

/-- FX33 and FX55 write memory (R47). -/
def Instr.writesMem (i : Instr) : Prop := (∃ x, i = .ldB x) ∨ ∃ x, i = .storeRegs x

end Sys2Proof

namespace Sys2Proof.Machine

/-- The table of R15: PC after a step that executes `i` at address `a` from state `s` (in which PC is `a`). -/
def finalPC (i : Instr) (a : Word) (s : State) : Word :=
  match i with
  | .jp nnn => nnn.setWidth 16
  | .call nnn => if s.sp = 16 then a + 2 else nnn.setWidth 16
  | .ret _ => if s.sp = 0 then a + 2 else s.stack.toList.getD (s.sp.val - 1) 0
  | .jpV0 nnn => nnn.setWidth 16 + (s.getV 0).setWidth 16
  | .seImm x nn => if s.getV x = nn then a + 4 else a + 2
  | .sneImm x nn => if s.getV x ≠ nn then a + 4 else a + 2
  | .seReg x y _ => if s.getV x = s.getV y then a + 4 else a + 2
  | .sneReg x y _ => if s.getV x ≠ s.getV y then a + 4 else a + 2
  | .skp x => if (s.getV x).toNat ≤ 15 ∧ s.keys.getLsbD (s.getV x).toNat = true then a + 4 else a + 2
  | .sknp x => if (s.getV x).toNat ≤ 15 ∧ s.keys.getLsbD (s.getV x).toNat = false then a + 4 else a + 2
  | .ldVxK _ =>
    match s.kw with
    | .capturedPress k => if s.keys.getLsbD k.toNat = false then a + 2 else a
    | .idle => a
  | .cls _ | .ldImm _ _ | .addImm _ _ | .ldReg _ _ | .orReg _ _ | .andReg _ _ | .xorReg _ _ | .addReg _ _ | .subReg _ _
  | .shr _ _ | .subnReg _ _ | .shl _ _ | .ldI _ | .rnd _ _ | .drw _ _ _ | .ldVxDT _ | .ldDTVx _ | .ldSTVx _ | .addI _
  | .ldF _ | .ldB _ | .storeRegs _ | .loadRegs _ | .unknown _ => a + 2

/-- The error an instruction reports from state `s`, `ok` if none (R157's Raised by and Cause columns, R158). -/
def errorOf (i : Instr) (s : State) : Status :=
  match i with
  | .call _ => if s.sp = 16 then .stackOverflow else .ok
  | .ret _ => if s.sp = 0 then .stackUnderflow else .ok
  | .skp x | .sknp x => if (s.getV x).toNat > 15 then .keyIndexOutOfRange else .ok
  | .drw _ _ n => if 1 ≤ n.toNat ∧ s.i.toNat + n.toNat - 1 > 4095 then .addressOutOfRange else .ok
  | .ldB _ => if s.i.toNat + 2 > 4095 then .addressOutOfRange else .ok
  | .storeRegs x | .loadRegs x => if s.i.toNat + x.toNat > 4095 then .addressOutOfRange else .ok
  | .cls _ | .jp _ | .seImm _ _ | .sneImm _ _ | .seReg _ _ _ | .ldImm _ _ | .addImm _ _ | .ldReg _ _ | .orReg _ _
  | .andReg _ _ | .xorReg _ _ | .addReg _ _ | .subReg _ _ | .shr _ _ | .subnReg _ _ | .shl _ _ | .sneReg _ _ _ | .ldI _
  | .jpV0 _ | .rnd _ _ | .ldVxDT _ | .ldVxK _ | .ldDTVx _ | .ldSTVx _ | .addI _ | .ldF _ | .unknown _ => .ok

/-- The bit of the sprite DXYN would draw at pixel (px, py), false outside the sprite: `n` rows of 8 columns from the origin,
row `py - y0` being the byte at `I + (py - y0)` with bit 7 leftmost (R131, R133). -/
def spriteBitAt (s : State) (vx vy : Byte) (n : Nibble) (px : Fin Config.fbW) (py : Fin Config.fbH) : Bool :=
  let x0 := vx.toNat % 64
  let y0 := vy.toNat % 32
  decide (x0 ≤ px.val ∧ px.val < x0 + 8 ∧ y0 ≤ py.val ∧ py.val < y0 + n.toNat) &&
    match s.mem.read (s.i.toNat + (py.val - y0)) with
    | some b => b.getLsbD (7 - (px.val - x0))
    | none => false

end Sys2Proof.Machine
end

