-- ==== Sys2Proof/Certificates/Slice0/Obligations.lean ====
section
/-! DEFINITION. The statements for the provers, from the numbered rules of spec/. Inside an instruction PC already holds own
address + 2 (spec/40_cycle_and_nop.md R82), so a frame `t = { s with ... }` that does not name `pc` says that PC ends there. -/

open Sys2Proof Sys2Proof.Machine

/-! ### Encoding and decoding (spec/30_encoding.md) -/

/-- R62, R73: no bit of an encoding is dropped, for every instruction and every operand; on bytes, the decoder takes two and
leaves the rest (R60). -/
def Obligations.DecodeOfEncodeIsTheInstruction : Prop :=
  ∀ (i : Instr) (rest : List Byte), i.wf = true →
    decode (encode i) = i ∧ decodeBytes (encodeBytes i ++ rest) = .ok (i, rest)

/-- R64: the decoder is total, its answer is a well-formed instruction, and the word can be read back from it. -/
def Obligations.EncodeOfDecodeIsTheWord : Prop :=
  ∀ w : Word, (decode w).wf = true ∧ encode (decode w) = w

/-- R73: a word decodes to the row with `(w & mask) = match`, at most one row matches, and none means UNKNOWN. -/
def Obligations.DecoderFollowsTheOpcodeMap : Prop :=
  ∀ w : Word,
    (∀ r ∈ opcodeMap, w &&& r.mask = r.pat → (decode w).mnemonic = r.mnemonic) ∧
      (∀ r ∈ opcodeMap, ∀ r' ∈ opcodeMap, w &&& r.mask = r.pat → w &&& r'.mask = r'.pat → r = r') ∧
      ((∀ r ∈ opcodeMap, w &&& r.mask ≠ r.pat) → decode w = .unknown w)

/-- R65 to R68, R70: exactly the words of the table are UNKNOWN; that no alias is one of them is D2 (log 7). -/
def Obligations.UnknownWordsAreTheTable : Prop :=
  ∀ w : Word,
    decode w = .unknown w ↔
      (w.toNat / 4096 = 0x0 ∧ w.toNat % 256 ≠ 0xE0 ∧ w.toNat % 256 ≠ 0xEE) ∨
        (w.toNat / 4096 = 0x8 ∧ w.toNat % 16 ∈ [0x8, 0x9, 0xA, 0xB, 0xC, 0xD, 0xF]) ∨
        (w.toNat / 4096 = 0xE ∧ w.toNat % 256 ≠ 0x9E ∧ w.toNat % 256 ≠ 0xA1) ∨
        (w.toNat / 4096 = 0xF ∧ w.toNat % 256 ∉ [0x07, 0x0A, 0x15, 0x18, 0x1E, 0x29, 0x33, 0x55, 0x65])

/-- R86: executing an UNKNOWN word changes nothing, and a step on one changes nothing but PC, with status OK (the field is
log 1). That a term `unknown` with the word of an instruction, which no decoding gives, does the same is the model's choice
(log 21). -/
def Obligations.UnknownWordsAreNoOps : Prop :=
  (∀ (w : Word) (s : State), exec (.unknown w) s = .next s) ∧
    ∀ (w : Word) (s : State), s.fetchWord = some w → decode w = .unknown w →
      step s = .next { s with pc := s.pc + 2, status := .ok }

/-- A few words written out from the spec's encodings (spec/95_test_vectors.md 2.1, 3.1 and, for 0x8126, AL27 of 3.3). -/
def Obligations.SampleWordsDecode : Prop :=
  decode 0xD125 = .drw 1 2 5 ∧ decode 0x6A02 = .ldImm 0xA 0x02 ∧ decode 0x026A = .unknown 0x026A ∧
    decode 0x1234 = .jp 0x234 ∧ decode 0xFF65 = .loadRegs 0xF ∧ decode 0x00E0 = .cls 0 ∧ decode 0xE000 = .unknown 0xE000 ∧
    decode 0x8AB8 = .unknown 0x8AB8 ∧ decode 0x8126 = .shr 1 2 ∧ decode 0x5121 = .seReg 1 2 1 ∧ decode 0x0FEE = .ret 0xF

/-- R62: "Decode extracts, from the 16-bit word, these fields". -/
def Obligations.FieldsOfTheWord : Prop :=
  ∀ w : Word,
    (famOf w).toNat = w.toNat / 4096 ∧ (xOf w).toNat = w.toNat / 256 % 16 ∧ (yOf w).toNat = w.toNat / 16 % 16 ∧
      (nOf w).toNat = w.toNat % 16 ∧ (nnOf w).toNat = w.toNat % 256 ∧ (nnnOf w).toNat = w.toNat % 4096

/-- R69, a decision of the spec (D2; log 7): "A non-canonical alias executes exactly as the canonical word does". -/
def Obligations.AliasesRunAsTheCanonicalWord : Prop :=
  ∀ (i : Instr) (s : State), exec i s = exec i.canonical s

/-! ### The step (spec/40_cycle_and_nop.md) -/

/-- R80, R82, R43: where both bytes at PC are in memory, a step decodes their big-endian word and executes it with PC advanced
by 2 and the status OK until something is raised. PC advanced first is D1 (log 6); the status field is the model's (log 1). -/
def Obligations.StepRunsTheDecodedInstruction : Prop :=
  ∀ (s : State) (hi lo : Byte), s.mem.read s.pc.toNat = some hi → s.mem.read (s.pc.toNat + 1) = some lo →
    (hi ++ lo).toNat = hi.toNat * 256 + lo.toNat ∧
      step s = exec (decode (hi ++ lo)) { s with pc := s.pc + 2, status := .ok }

/-- R44, R81, a decision of the spec (D5; log 10): out of fetch range a step reports FetchOutOfRange and changes nothing, and
whatever operations but Reset follow, the machine makes no further progress. Tick still counts the timers down (a timer at 0
stays 0: D7; log 12) and SetKeys still replaces the snapshot (D9; log 14), and neither changes anything else. The status
field and the sticky bit are the model's (log 1). -/
def Obligations.FetchOutOfRangeIsStuckUntilReset : Prop :=
  ∀ (ops : List HostOp) (s t : State), 4094 < s.pc.toNat → HostOp.reset ∉ ops → runOps ops s = .next t →
    t.toAggregate = { s.toAggregate with dt := t.dt, st := t.st, keys := t.keys } ∧
      step t = .next { t with status := .fetchOutOfRange, faulted := true } ∧
      (∃ u, runOp .tick t = .next u ∧ u.dt.toNat = t.dt.toNat - 1 ∧ u.st.toNat = t.st.toNat - 1 ∧
        u = { t with dt := u.dt, st := u.st, status := .ok }) ∧
      ∀ keys : BitVec 16, runOp (.setKeys keys) t = .next { t with keys := keys, status := .ok }

/-- R83: "No instruction failure is fatal to the process": a step answers a next state from every state, so no range check is
too weak for the accesses behind it (log 23); of the host's operations only a LoadROM out of turn is refused (D16; log 17). -/
def Obligations.EveryOperationAnswersANextState : Prop :=
  (∀ s : State, ∃ t, step s = .next t) ∧
    ∀ (op : HostOp) (s : State),
      (∃ t, runOp op s = .next t) ∨
        (runOp op s = .refused .loadOutOfTurn ∧ s.toAggregate ≠ Aggregate.reset ∧ ∃ bytes, op = .loadROM bytes)

/-- R83, R158, D3, D5, D8, D15: a step that reports an error made no state change but the PC advance, and none at all for
FetchOutOfRange. -/
def Obligations.AnErrorChangesNothingButPC : Prop :=
  ∀ s t : State, step s = .next t → t.status ≠ .ok →
    t.toAggregate = { s.toAggregate with pc := if t.status = .fetchOutOfRange then s.pc else s.pc + 2 } ∧
      t.rand = s.rand ∧ t.draws = s.draws

/-- R157, R158: which error a step reports, by instruction and cause: the spec's decisions D3, D20 (log 8), D5 (log 10), D8
(log 13) and D15 (log 16); the sticky bit is that of D11 (log 1). -/
def Obligations.WhoReportsWhichError : Prop :=
  ∀ s t : State, step s = .next t →
    (4094 < s.pc.toNat → t.status = .fetchOutOfRange) ∧
      (∀ w, s.fetchWord = some w → t.status = errorOf (decode w) s) ∧
      (t.faulted = true ↔ s.faulted = true ∨ t.status ≠ .ok)

/-- R25, R150: the returned status and the sticky bit are outputs; nothing a later step does depends on them. -/
def Obligations.StatusIsNeverRead : Prop :=
  ∀ s s' : State, s.toAggregate = s'.toAggregate → s.rand = s'.rand → s.draws = s'.draws →
    ∃ t t', step s = .next t ∧ step s' = .next t' ∧ t.toAggregate = t'.toAggregate ∧ t.status = t'.status ∧
      t.rand = t'.rand ∧ t.draws = t'.draws

/-- R113: "A step that does not execute CXNN ignores `rand`" (and draws nothing from the free stream, log 2). -/
def Obligations.OnlyRndReadsTheRandomByte : Prop :=
  ∀ (i : Instr) (s : State) (r : Byte) (d : Nat), (∀ x nn, i ≠ .rnd x nn) →
    ∃ t, exec i s = .next t ∧ exec i { s with rand := r, draws := d } = .next { t with rand := r, draws := d }

/-- The table of R15 (D1, D3, D8, D15): PC after every step that fetches. -/
def Obligations.FinalPCOfEveryInstruction : Prop :=
  ∀ (s t : State) (w : Word), s.fetchWord = some w → step s = .next t → t.pc = finalPC (decode w) s.pc s

/-! ### Control flow (spec/41_control_flow.md) -/

/-- R92, R95. -/
def Obligations.JumpsSetPC : Prop :=
  ∀ (nnn : Addr12) (s : State),
    encode (.jp nnn) = orNNN 0x1000 nnn ∧ encode (.jpV0 nnn) = orNNN 0xB000 nnn ∧
      (∃ t, exec (.jp nnn) s = .next t ∧ t.pc.toNat = nnn.toNat ∧ t = { s with pc := t.pc }) ∧
      ∃ t, exec (.jpV0 nnn) s = .next t ∧ t.pc.toNat = nnn.toNat + (s.getV 0).toNat ∧ t = { s with pc := t.pc }

/-- R94 and R90: a call below the depth pushes the advanced PC; a call on a full stack reports StackOverflow and is ignored
(D15; log 16). -/
def Obligations.CallPushesTheReturnAddress : Prop :=
  ∀ (nnn : Addr12) (s : State),
    encode (.call nnn) = orNNN 0x2000 nnn ∧
      (s.sp.val < 16 →
        ∃ t, exec (.call nnn) s = .next t ∧ t.sp.val = s.sp.val + 1 ∧ t.stack[s.sp.val]? = some s.pc ∧
          (∀ j : Nat, j ≠ s.sp.val → t.stack[j]? = s.stack[j]?) ∧ t.pc.toNat = nnn.toNat ∧
          t = { s with pc := t.pc, sp := t.sp, stack := t.stack }) ∧
      (s.sp.val = 16 → exec (.call nnn) s = .next { s with status := .stackOverflow, faulted := true })

/-- R93 and R90: a return pops into PC and leaves the slot; on an empty stack it reports StackUnderflow and does nothing
(D15; log 16). -/
def Obligations.RetPopsTheReturnAddress : Prop :=
  ∀ (u : Nibble) (s : State),
    (0 < s.sp.val →
        ∃ t, exec (.ret u) s = .next t ∧ t.sp.val = s.sp.val - 1 ∧ s.stack[s.sp.val - 1]? = some t.pc ∧
          t = { s with pc := t.pc, sp := t.sp }) ∧
      (s.sp.val = 0 → exec (.ret u) s = .next { s with status := .stackUnderflow, faulted := true })

/-- DOC00 section 8 in R93: "CALL (2NNN) then RETURN (00EE) restores program_counter to the instruction immediately following
the original CALL", whatever ran in between, if it left the stack as the call did. -/
def Obligations.CallThenRetComesBack : Prop :=
  ∀ (nnn : Addr12) (u : Nibble) (s s1 s2 : State), s.sp.val < 16 → exec (.call nnn) s = .next s1 →
    s2.sp = s1.sp → s2.stack = s1.stack →
    ∃ t, exec (.ret u) s2 = .next t ∧ t.pc = s.pc ∧ t.sp = s.sp ∧ t.stack = s1.stack

/-- R96, R97: a taken skip is an extra 2; nothing else changes. -/
def Obligations.SkipsCompareAnImmediate : Prop :=
  ∀ (x : RegIdx) (nn : Byte) (s : State),
    encode (.seImm x nn) = orXNN 0x3000 x nn ∧ encode (.sneImm x nn) = orXNN 0x4000 x nn ∧
      exec (.seImm x nn) s = .next { s with pc := if s.getV x = nn then s.pc + 2 else s.pc } ∧
      exec (.sneImm x nn) s = .next { s with pc := if s.getV x = nn then s.pc else s.pc + 2 }

/-- R98, R99: as above between two registers; the low nibble, whatever it is, is not examined (D2; log 7). -/
def Obligations.SkipsCompareRegisters : Prop :=
  ∀ (x y : RegIdx) (u : Nibble) (s : State),
    encode (.seReg x y u) = orXY 0x5000 x y ||| u.setWidth 16 ∧
      encode (.sneReg x y u) = orXY 0x9000 x y ||| u.setWidth 16 ∧
      exec (.seReg x y u) s = .next { s with pc := if s.getV x = s.getV y then s.pc + 2 else s.pc } ∧
      exec (.sneReg x y u) s = .next { s with pc := if s.getV x = s.getV y then s.pc else s.pc + 2 }

/-- R140, R141, R142: a key skip on a key that exists; V[X] above 15 reports KeyIndexOutOfRange and does not skip, for both
(D8; log 13). -/
def Obligations.SkipsOnKeys : Prop :=
  ∀ (x : RegIdx) (s : State),
    ((s.getV x).toNat ≤ 15 →
        exec (.skp x) s = .next { s with pc := if s.keys.getLsbD (s.getV x).toNat then s.pc + 2 else s.pc } ∧
          exec (.sknp x) s = .next { s with pc := if s.keys.getLsbD (s.getV x).toNat then s.pc else s.pc + 2 }) ∧
      (15 < (s.getV x).toNat →
        exec (.skp x) s = .next { s with status := .keyIndexOutOfRange, faulted := true } ∧
          exec (.sknp x) s = .next { s with status := .keyIndexOutOfRange, faulted := true })

/-! ### The ALU (spec/42_alu.md) -/

/-- R101, R102, R103. -/
def Obligations.LoadsAndFlaglessAdd : Prop :=
  ∀ (x y : RegIdx) (nn : Byte) (s : State),
    encode (.ldImm x nn) = orXNN 0x6000 x nn ∧ encode (.addImm x nn) = orXNN 0x7000 x nn ∧
      encode (.ldReg x y) = orXY 0x8000 x y ∧
      (∃ t, exec (.ldImm x nn) s = .next t ∧ t.getV x = nn ∧ onlyRegister x s t) ∧
      (∃ t, exec (.addImm x nn) s = .next t ∧ (t.getV x).toNat = ((s.getV x).toNat + nn.toNat) % 256 ∧
        onlyRegister x s t) ∧
      ∃ t, exec (.ldReg x y) s = .next t ∧ t.getV x = s.getV y ∧ onlyRegister x s t

/-- R104, R105, R106: bit by bit, and VF is not written unless it is V[X]. -/
def Obligations.LogicWritesNoFlag : Prop :=
  ∀ (x y : RegIdx) (s : State),
    encode (.orReg x y) = orXY 0x8001 x y ∧ encode (.andReg x y) = orXY 0x8002 x y ∧
      encode (.xorReg x y) = orXY 0x8003 x y ∧
      (∃ t, exec (.orReg x y) s = .next t ∧ onlyRegister x s t ∧
        ∀ j, (t.getV x).getLsbD j = ((s.getV x).getLsbD j || (s.getV y).getLsbD j)) ∧
      (∃ t, exec (.andReg x y) s = .next t ∧ onlyRegister x s t ∧
        ∀ j, (t.getV x).getLsbD j = ((s.getV x).getLsbD j && (s.getV y).getLsbD j)) ∧
      ∃ t, exec (.xorReg x y) s = .next t ∧ onlyRegister x s t ∧
        ∀ j, (t.getV x).getLsbD j = ((s.getV x).getLsbD j ^^ (s.getV y).getLsbD j)

/-- R107, R108, R110 with R100: the result in V[X] (which wins when X = 0xF, D6; log 11), the carry or no-borrow flag in VF
otherwise, both computed from the operands before the instruction (so also when Y = 0xF). -/
def Obligations.AddAndSubtractWithFlag : Prop :=
  ∀ (x y : RegIdx) (s : State),
    (∃ t, exec (.addReg x y) s = .next t ∧
        (t.getV x).toNat = ((s.getV x).toNat + (s.getV y).toNat) % 256 ∧
        (x ≠ 0xF → t.getV 0xF = if (s.getV x).toNat + (s.getV y).toNat > 255 then 1 else 0) ∧ onlyRegisterAndFlag x s t) ∧
      (∃ t, exec (.subReg x y) s = .next t ∧
        ((t.getV x).toNat : Int) = ((s.getV x).toNat - (s.getV y).toNat : Int) % 256 ∧
        (x ≠ 0xF → t.getV 0xF = if (s.getV x).toNat ≥ (s.getV y).toNat then 1 else 0) ∧ onlyRegisterAndFlag x s t) ∧
      ∃ t, exec (.subnReg x y) s = .next t ∧
        ((t.getV x).toNat : Int) = ((s.getV y).toNat - (s.getV x).toNat : Int) % 256 ∧
        (x ≠ 0xF → t.getV 0xF = if (s.getV y).toNat ≥ (s.getV x).toNat then 1 else 0) ∧ onlyRegisterAndFlag x s t

/-- R109, R111 with R100: V[X] is shifted by one whatever Y is (D2), VF receives the bit shifted out unless X = 0xF (D6;
log 11). -/
def Obligations.ShiftsByOne : Prop :=
  ∀ (x y : RegIdx) (s : State),
    (∃ t, exec (.shr x y) s = .next t ∧ (t.getV x).toNat = (s.getV x).toNat / 2 ∧
        (x ≠ 0xF → (t.getV 0xF).toNat = (s.getV x).toNat % 2) ∧ onlyRegisterAndFlag x s t) ∧
      ∃ t, exec (.shl x y) s = .next t ∧ (t.getV x).toNat = (s.getV x).toNat * 2 % 256 ∧
        (x ≠ 0xF → (t.getV 0xF).toNat = (s.getV x).toNat / 128) ∧ onlyRegisterAndFlag x s t

/-- R112: the step's random byte, whatever it is, masked by NN. The model's own fields `rand` and `draws` may change (log 2). -/
def Obligations.RndMasksTheRandomByte : Prop :=
  ∀ (x : RegIdx) (nn : Byte) (s : State),
    encode (.rnd x nn) = orXNN 0xC000 x nn ∧
      ∃ t, exec (.rnd x nn) s = .next t ∧ t.getV x = s.rand &&& nn ∧ (∀ r, r ≠ x → t.getV r = s.getV r) ∧
        t = { s with v := t.v, rand := t.rand, draws := t.draws }

/-! ### The index register and memory (spec/43_index_memory.md) -/

/-- R120, R121: no flag, and the sum is kept to 16 bits. -/
def Obligations.IndexLoadAndAdd : Prop :=
  ∀ (x : RegIdx) (nnn : Addr12) (s : State),
    encode (.ldI nnn) = orNNN 0xA000 nnn ∧ encode (.addI x) = orX 0xF01E x ∧
      (∃ t, exec (.ldI nnn) s = .next t ∧ t.i.toNat = nnn.toNat ∧ t = { s with i := t.i }) ∧
      ∃ t, exec (.addI x) s = .next t ∧ t.i.toNat = (s.i.toNat + (s.getV x).toNat) % 65536 ∧ t = { s with i := t.i }

/-- R122: the formula as written, V[X] not masked (D22; log 19). -/
def Obligations.FontAddressIsNotMasked : Prop :=
  ∀ (x : RegIdx) (s : State),
    encode (.ldF x) = orX 0xF029 x ∧
      ∃ t, exec (.ldF x) s = .next t ∧ t.i.toNat = 0x50 + 5 * (s.getV x).toNat ∧ t = { s with i := t.i }

/-- R123 in range: the three decimal digits at I, I + 1, I + 2, every other byte of memory alone, nothing else changed. -/
def Obligations.BcdStoresTheDigits : Prop :=
  ∀ (x : RegIdx) (s : State), s.memOk → s.i.toNat + 2 ≤ 4095 →
    ∃ t, exec (.ldB x) s = .next t ∧ t = { s with mem := t.mem } ∧
      (∃ d2 d1 d0 : Byte, t.mem.read s.i.toNat = some d2 ∧ t.mem.read (s.i.toNat + 1) = some d1 ∧
        t.mem.read (s.i.toNat + 2) = some d0 ∧
        (s.getV x).toNat = 100 * d2.toNat + 10 * d1.toNat + d0.toNat ∧ d1.toNat ≤ 9 ∧ d0.toNat ≤ 9) ∧
      ∀ a, ¬ (s.i.toNat ≤ a ∧ a ≤ s.i.toNat + 2) → t.mem.read a = s.mem.read a

/-- R124 and R125 in range: V[0] to V[X] at I to I + X, every other byte of memory alone, nothing else changed. -/
def Obligations.BlockStoreWritesTheRegisters : Prop :=
  ∀ (x : RegIdx) (s : State), s.memOk → s.i.toNat + x.toNat ≤ 4095 →
    ∃ t, exec (.storeRegs x) s = .next t ∧ t = { s with mem := t.mem } ∧
      (∀ r : RegIdx, r.toNat ≤ x.toNat → t.mem.read (s.i.toNat + r.toNat) = some (s.getV r)) ∧
      ∀ a, ¬ (s.i.toNat ≤ a ∧ a ≤ s.i.toNat + x.toNat) → t.mem.read a = s.mem.read a

/-- R126 and R125 in range: V[0] to V[X] from I to I + X, the registers above X alone, nothing else changed. -/
def Obligations.BlockLoadReadsTheRegisters : Prop :=
  ∀ (x : RegIdx) (s : State), s.i.toNat + x.toNat ≤ 4095 →
    ∃ t, exec (.loadRegs x) s = .next t ∧ t = { s with v := t.v } ∧
      (∀ r : RegIdx, r.toNat ≤ x.toNat → s.mem.read (s.i.toNat + r.toNat) = some (t.getV r)) ∧
      ∀ r : RegIdx, x.toNat < r.toNat → t.getV r = s.getV r

/-- R48, R49, a decision of the spec (D3, D20; log 8): past address 4095 the instruction reports AddressOutOfRange and does
nothing at all. -/
def Obligations.OutOfRangeAccessDoesNothing : Prop :=
  ∀ (x y : RegIdx) (n : Nibble) (s : State),
    (4095 < s.i.toNat + 2 → exec (.ldB x) s = .next { s with status := .addressOutOfRange, faulted := true }) ∧
      (4095 < s.i.toNat + x.toNat →
        exec (.storeRegs x) s = .next { s with status := .addressOutOfRange, faulted := true } ∧
          exec (.loadRegs x) s = .next { s with status := .addressOutOfRange, faulted := true }) ∧
      (1 ≤ n.toNat → 4095 < s.i.toNat + n.toNat - 1 →
        exec (.drw x y n) s = .next { s with status := .addressOutOfRange, faulted := true })

/-- DOC00 section 8 in R126: FX55, then FX65 from the same index and memory, restores the registers exactly, whatever the
registers held in between. -/
def Obligations.StoreThenLoadRestoresTheRegisters : Prop :=
  ∀ (x : RegIdx) (s s1 s2 : State), s.memOk → s.i.toNat + x.toNat ≤ 4095 → exec (.storeRegs x) s = .next s1 →
    s2.i = s1.i → s2.mem = s1.mem →
    ∃ t, exec (.loadRegs x) s2 = .next t ∧ ∀ r : RegIdx, r.toNat ≤ x.toNat → t.getV r = s.getV r

/-- R53, R193 (D14; log 20): the bytes a block store writes are what the next fetch there returns. -/
def Obligations.StoresAreSeenByTheNextFetch : Prop :=
  ∀ (x r : RegIdx) (s s1 t : State), s.memOk → s.i.toNat + x.toNat ≤ 4095 → exec (.storeRegs x) s = .next s1 →
    r.toNat < x.toNat → t.mem = s1.mem → t.pc.toNat = s.i.toNat + r.toNat →
    t.fetchWord = some (s.getV r ++ s.getV (r + 1))

/-- Equal memories are equal data: two canonical memories that read the same everywhere are the same list (log 23). -/
def Obligations.CanonicalMemoryIsUnique : Prop :=
  ∀ m m' : Memory, m.wf = true → m'.wf = true → (∀ a, m.read a = m'.read a) → m = m'

/-! ### The display (spec/44_display.md) -/

/-- R130: every pixel off, nothing else changed; `w[11:8]` is not examined. -/
def Obligations.ClsTurnsEveryPixelOff : Prop :=
  ∀ (u : Nibble) (s : State),
    encode (.cls u) = orX 0x00E0 u ∧
      ∃ t, exec (.cls u) s = .next t ∧ (∀ px py, t.fb.get px py = false) ∧ t = { s with fb := t.fb }

/-- R131, R133 in range (log 29): every pixel is exclusive-ored with the sprite, whose origin wraps and whose pixels clip;
I, memory and every register but VF are unchanged. -/
def Obligations.DrwXorsTheSprite : Prop :=
  ∀ (x y : RegIdx) (n : Nibble) (s : State), n = 0 ∨ s.i.toNat + n.toNat - 1 ≤ 4095 →
    ∃ t, exec (.drw x y n) s = .next t ∧ t = { s with v := t.v, fb := t.fb } ∧
      (∀ r, r ≠ 0xF → t.getV r = s.getV r) ∧
      ∀ px py, t.fb.get px py = (s.fb.get px py ^^ spriteBitAt s (s.getV x) (s.getV y) n px py)

/-- R131, R132 in range: VF is 1 if a set sprite bit met a lit pixel, and 0 otherwise; coordinates are read before VF is
cleared (D6; log 11). -/
def Obligations.DrwReportsTheCollision : Prop :=
  ∀ (x y : RegIdx) (n : Nibble) (s t : State), n = 0 ∨ s.i.toNat + n.toNat - 1 ≤ 4095 →
    exec (.drw x y n) s = .next t →
    ((∃ px py, spriteBitAt s (s.getV x) (s.getV y) n px py = true ∧ s.fb.get px py = true) → t.getV 0xF = 1) ∧
      ((¬ ∃ px py, spriteBitAt s (s.getV x) (s.getV y) n px py = true ∧ s.fb.get px py = true) → t.getV 0xF = 0)

/-- R131, a corner case: N = 0 draws nothing, reads nothing whatever I holds, and still clears VF. -/
def Obligations.DrwOfNoRowsClearsVF : Prop :=
  ∀ (x y : RegIdx) (s : State),
    ∃ t, exec (.drw x y 0) s = .next t ∧ t.getV 0xF = 0 ∧ (∀ r, r ≠ 0xF → t.getV r = s.getV r) ∧ t = { s with v := t.v }

/-- R131, a corner case: the same sprite drawn again at the same origin restores the framebuffer, and the second draw reports
a collision if the first one lit a pixel. -/
def Obligations.DrawingTwiceRestoresTheScreen : Prop :=
  ∀ (x y x' y' : RegIdx) (n : Nibble) (s s1 s2 : State), n = 0 ∨ s.i.toNat + n.toNat - 1 ≤ 4095 →
    exec (.drw x y n) s = .next s1 → s2.fb = s1.fb → s2.mem = s.mem → s2.i = s.i →
    s2.getV x' = s.getV x → s2.getV y' = s.getV y →
    ∃ t, exec (.drw x' y' n) s2 = .next t ∧ t.fb = s.fb ∧
      ((∃ px py, spriteBitAt s (s.getV x) (s.getV y) n px py = true ∧ s1.fb.get px py = true) → t.getV 0xF = 1)

/-! ### Keypad and timers (spec/45_keypad_timers.md) -/

/-- R144: the four moves of the key-wait state machine (D18; log 18). A wait is PC standing still. -/
def Obligations.KeyWaitStateMachine : Prop :=
  ∀ (x : RegIdx) (s : State),
    (s.kw = .idle → s.keys = 0 → exec (.ldVxK x) s = .next { s with pc := s.pc - 2 }) ∧
      (∀ k, s.kw = .idle → lowestKey s.keys = some k →
        exec (.ldVxK x) s = .next { s with pc := s.pc - 2, kw := .capturedPress k }) ∧
      (∀ k : Key, s.kw = .capturedPress k → s.keys.getLsbD k.toNat = true →
        exec (.ldVxK x) s = .next { s with pc := s.pc - 2 }) ∧
      ∀ k : Key, s.kw = .capturedPress k → s.keys.getLsbD k.toNat = false →
        ∃ t, exec (.ldVxK x) s = .next t ∧ (t.getV x).toNat = k.toNat ∧ t.kw = .idle ∧
          (∀ r, r ≠ x → t.getV r = s.getV r) ∧ t = { s with v := t.v, kw := t.kw }

/-- R143, a decision of the spec (D10; log 15): the captured key is the least one down. -/
def Obligations.LowestKeyIsTheLeastDown : Prop :=
  ∀ keys : BitVec 16,
    (lowestKey keys = none ↔ keys = 0) ∧
      ∀ k : Key, lowestKey keys = some k ↔
        keys.getLsbD k.toNat = true ∧ ∀ j : Key, j.toNat < k.toNat → keys.getLsbD j.toNat = false

/-- DOC00 section 8 in R144: with key k reported pressed, then released, over two steps, V[X] holds k and PC is 2 beyond the
FX0A; between the two steps the register is not yet written. -/
def Obligations.KeyPressThenReleaseDeliversTheKey : Prop :=
  ∀ (s : State) (w : Word) (x : RegIdx) (k : Key), s.fetchWord = some w → decode w = .ldVxK x → s.kw = .idle →
    ∃ s1 s2, step (setKeys (1#16 <<< k.toNat) s) = .next s1 ∧ s1.kw = .capturedPress k ∧ s1.pc = s.pc ∧ s1.v = s.v ∧
      step (setKeys 0 s1) = .next s2 ∧ (s2.getV x).toNat = k.toNat ∧ s2.kw = .idle ∧ s2.pc = s.pc + 2 ∧
      s2.status = .ok

/-- R145, R146, R148. -/
def Obligations.TimerRegisterMoves : Prop :=
  ∀ (x : RegIdx) (s : State),
    encode (.ldVxDT x) = orX 0xF007 x ∧ encode (.ldDTVx x) = orX 0xF015 x ∧ encode (.ldSTVx x) = orX 0xF018 x ∧
      (∃ t, exec (.ldVxDT x) s = .next t ∧ t.getV x = s.dt ∧ onlyRegister x s t) ∧
      exec (.ldDTVx x) s = .next { s with dt := s.getV x } ∧ exec (.ldSTVx x) s = .next { s with st := s.getV x }

/-- R147: `n` ticks count each timer down by `n`, and a timer holds at 0 (D7, from general knowledge; log 12); nothing else
changes. -/
def Obligations.TicksCountDownAndHoldAtZero : Prop :=
  ∀ (s : State) (n : Nat),
    (Nat.repeat tick n s).dt.toNat = s.dt.toNat - n ∧ (Nat.repeat tick n s).st.toNat = s.st.toNat - n ∧
      tick s = { s with dt := (tick s).dt, st := (tick s).st, status := .ok }

/-- R168 (D9; log 14), R169, R170: the key snapshot is replaced whole and nothing else changes; PixelAt and Tone only read. -/
def Obligations.HostInputsAndOutputs : Prop :=
  ∀ (keys : BitVec 16) (s : State),
    setKeys keys s = { s with keys := keys, status := .ok } ∧ (tone s = true ↔ 0 < s.st.toNat) ∧
      ∀ px py, pixelAt px py s = s.fb.get px py

/-! ### Reset and load (spec/70_reset_and_hazards.md) -/

/-- R29, R180, R181: what Reset leaves, from any state. I, S, K and KW are the spec's decision (D17; log 4); the font's values
are not stated here (log 3), only that no other byte is set. -/
def Obligations.ResetLeavesTheStatedValues : Prop :=
  ∀ s : State,
    (∀ r, (resetOp s).getV r = 0) ∧ (resetOp s).pc = 0x200 ∧ (resetOp s).sp = 0 ∧ (resetOp s).dt = 0 ∧
      (resetOp s).st = 0 ∧ (∀ px py, pixelAt px py (resetOp s) = false) ∧ tone (resetOp s) = false ∧
      (∀ a, a < 4096 → ¬ (0x50 ≤ a ∧ a < 0xA0) → (resetOp s).mem.read a = some 0) ∧
      (resetOp s).i = 0 ∧ (∀ j : Fin 16, (resetOp s).stack[j] = 0) ∧ (resetOp s).keys = 0 ∧ (resetOp s).kw = .idle ∧
      (resetOp s).toAggregate = State.reset.toAggregate

/-- R185 in the state Reset produces (the one state LoadROM is defined in: D16; log 17): up to 3584 bytes land verbatim from
0x200 and only memory changes; more report RomTooLarge and nothing is copied. The status field and the sticky bit, set by
the error, are the model's (D11; log 1). -/
def Obligations.LoadROMCopiesTheBytes : Prop :=
  ∀ (bytes : List Byte) (s : State), s.toAggregate = Aggregate.reset →
    (bytes.length ≤ 3584 →
        ∃ t, loadROM bytes s = .next t ∧ t = { s with mem := t.mem, status := .ok } ∧
          (∀ j, j < bytes.length → t.mem.read (0x200 + j) = bytes[j]?) ∧
          ∀ a, ¬ (0x200 ≤ a ∧ a < 0x200 + bytes.length) → t.mem.read a = s.mem.read a) ∧
      (3584 < bytes.length → loadROM bytes s = .next { s with status := .romTooLarge, faulted := true })

/-- R186, a decision of the spec (D16; log 17): LoadROM is refused in a state that Reset did not produce. -/
def Obligations.LoadROMOutOfTurnIsRefused : Prop :=
  ∀ (bytes : List Byte) (s : State), s.toAggregate ≠ Aggregate.reset → loadROM bytes s = .refused .loadOutOfTurn

/-! ### Invariants (spec/10_state.md R30) -/

/-- R30: the invariants hold in the reset state. -/
def Obligations.ResetMeetsTheInvariants : Prop := State.reset.Inv

/-- R30, fourth line: every step keeps memory canonical, so no address outside the 4096 bytes is ever written. -/
def Obligations.EveryStepKeepsMemoryCanonical : Prop :=
  ∀ s t : State, s.memOk → step s = .next t → t.memOk

/-- R17, R30: PC never exceeds 0x10FE, and no return address exceeds 0x1000. -/
def Obligations.EveryStepKeepsPCBounded : Prop :=
  ∀ s t : State, s.pcBounded → step s = .next t → t.pcBounded

/-- R144, R30: KW can be CapturedPress only while the next instruction is an FX0A. -/
def Obligations.EveryStepKeepsTheKeyWaitAtAnFX0A : Prop :=
  ∀ s t : State, s.keyWaitOk → step s = .next t → t.keyWaitOk

/-- R30: the invariants are preserved by every operation, so by every sequence of host operations in any interleaving
(R194). -/
def Obligations.EveryRunKeepsTheInvariants : Prop :=
  ∀ (ops : List HostOp) (s t : State), s.Inv → runOps ops s = .next t → t.Inv

/-! ### Frames over all instructions -/

/-- R12: "No instruction other than those listed touches a general register": a register not listed as written keeps its
value (VF with the writes of R27 included), and one listed neither as read nor as written has no influence. -/
def Obligations.OnlyListedRegistersAreTouched : Prop :=
  ∀ (i : Instr) (s : State) (r : RegIdx) (b : Byte), i.writesV r = false →
    (∀ t, exec i s = .next t → t.getV r = s.getV r) ∧
      (i.readsV r = false → ∃ t, exec i s = .next t ∧ exec i (s.setV r b) = .next (t.setV r b))

/-- R13, R18 to R24: the "written by" of each special register, of the call stack, the framebuffer, the keys and KW. -/
def Obligations.OnlyListedInstructionsWriteSpecialState : Prop :=
  ∀ (i : Instr) (s t : State), exec i s = .next t →
    (¬ i.writesI → t.i = s.i) ∧ ((∀ x, i ≠ .ldDTVx x) → t.dt = s.dt) ∧ ((∀ x, i ≠ .ldSTVx x) → t.st = s.st) ∧
      (¬ i.usesStack → t.sp = s.sp) ∧ ((∀ nnn, i ≠ .call nnn) → t.stack = s.stack) ∧ (¬ i.writesFB → t.fb = s.fb) ∧
      ((∀ x, i ≠ .ldVxK x) → t.kw = s.kw) ∧ t.keys = s.keys

/-- R47, R49: only FX33 and FX55 write memory, and only the bytes from I to I + 2 or I + X. -/
def Obligations.OnlyStoresWriteMemory : Prop :=
  ∀ (i : Instr) (s t : State), s.memOk → exec i s = .next t →
    (¬ i.writesMem → t.mem = s.mem) ∧
      (∀ x a, i = .ldB x → ¬ (s.i.toNat ≤ a ∧ a ≤ s.i.toNat + 2) → t.mem.read a = s.mem.read a) ∧
      ∀ x a, i = .storeRegs x → ¬ (s.i.toNat ≤ a ∧ a ≤ s.i.toNat + x.toNat) → t.mem.read a = s.mem.read a
end

