-- ==== Sys2Proof/Laws/Decode.lean ====
section
/-! SUPPORT. Words and their fields as numbers: the fields of a word built by each format, and a word rebuilt from its fields.
The round trips rest on these. -/

namespace Sys2Proof

/-- Appending a low part is a multiplication and an addition. -/
theorem toNat_append_eq {a b : Nat} (x : BitVec a) (y : BitVec b) : (x ++ y).toNat = x.toNat * 2 ^ b + y.toNat := by
  rw [BitVec.toNat_append, ← Nat.shiftLeft_add_eq_or_of_lt y.isLt, Nat.shiftLeft_eq]

/-! ### The fields of a word as numbers (R62) -/

theorem toNat_famOf (w : Word) : (famOf w).toNat = w.toNat / 4096 := by
  have := w.isLt
  simp only [famOf, BitVec.extractLsb'_toNat, Nat.shiftRight_eq_div_pow]
  omega

theorem toNat_xOf (w : Word) : (xOf w).toNat = w.toNat / 256 % 16 := by
  simp only [xOf, BitVec.extractLsb'_toNat, Nat.shiftRight_eq_div_pow]

theorem toNat_yOf (w : Word) : (yOf w).toNat = w.toNat / 16 % 16 := by
  simp only [yOf, BitVec.extractLsb'_toNat, Nat.shiftRight_eq_div_pow]

theorem toNat_nOf (w : Word) : (nOf w).toNat = w.toNat % 16 := by
  simp [nOf, BitVec.extractLsb'_toNat]

theorem toNat_nnOf (w : Word) : (nnOf w).toNat = w.toNat % 256 := by
  simp [nnOf, BitVec.extractLsb'_toNat]

theorem toNat_nnnOf (w : Word) : (nnnOf w).toNat = w.toNat % 4096 := by
  simp [nnnOf, BitVec.extractLsb'_toNat]

/-! ### The words of the formats as numbers (R61) -/

section Formats
variable (f x y n : Nibble) (nn : Byte) (nnn : Addr12)

theorem toNat_wordNNN : (wordNNN f nnn).toNat = f.toNat * 4096 + nnn.toNat :=
  toNat_append_eq f nnn

theorem toNat_wordXNN : (wordXNN f x nn).toNat = f.toNat * 4096 + x.toNat * 256 + nn.toNat := by
  refine (toNat_append_eq (f ++ x) nn).trans ?_
  rw [toNat_append_eq]; omega

theorem toNat_wordXYN : (wordXYN f x y n).toNat = f.toNat * 4096 + x.toNat * 256 + y.toNat * 16 + n.toNat := by
  refine (toNat_append_eq (f ++ x ++ y) n).trans ?_
  rw [toNat_append_eq, toNat_append_eq]; omega

/-! ### The fields of the words of the formats -/

@[simp] theorem famOf_wordNNN : famOf (wordNNN f nnn) = f := by
  apply BitVec.eq_of_toNat_eq; rw [toNat_famOf, toNat_wordNNN]; have := nnn.isLt; omega

@[simp] theorem nnnOf_wordNNN : nnnOf (wordNNN f nnn) = nnn := by
  apply BitVec.eq_of_toNat_eq; rw [toNat_nnnOf, toNat_wordNNN]; have := nnn.isLt; omega

@[simp] theorem famOf_wordXNN : famOf (wordXNN f x nn) = f := by
  apply BitVec.eq_of_toNat_eq; rw [toNat_famOf, toNat_wordXNN]; have := x.isLt; have := nn.isLt; omega

@[simp] theorem xOf_wordXNN : xOf (wordXNN f x nn) = x := by
  apply BitVec.eq_of_toNat_eq; rw [toNat_xOf, toNat_wordXNN]; have := x.isLt; have := nn.isLt; omega

@[simp] theorem nnOf_wordXNN : nnOf (wordXNN f x nn) = nn := by
  apply BitVec.eq_of_toNat_eq; rw [toNat_nnOf, toNat_wordXNN]; have := nn.isLt; omega

@[simp] theorem famOf_wordXYN : famOf (wordXYN f x y n) = f := by
  apply BitVec.eq_of_toNat_eq; rw [toNat_famOf, toNat_wordXYN]
  have := x.isLt; have := y.isLt; have := n.isLt; omega

@[simp] theorem xOf_wordXYN : xOf (wordXYN f x y n) = x := by
  apply BitVec.eq_of_toNat_eq; rw [toNat_xOf, toNat_wordXYN]
  have := x.isLt; have := y.isLt; have := n.isLt; omega

@[simp] theorem yOf_wordXYN : yOf (wordXYN f x y n) = y := by
  apply BitVec.eq_of_toNat_eq; rw [toNat_yOf, toNat_wordXYN]
  have := y.isLt; have := n.isLt; omega

@[simp] theorem nOf_wordXYN : nOf (wordXYN f x y n) = n := by
  apply BitVec.eq_of_toNat_eq; rw [toNat_nOf, toNat_wordXYN]; have := n.isLt; omega

end Formats

/-! ### A word is what its fields make -/

theorem wordNNN_fields (w : Word) : wordNNN (famOf w) (nnnOf w) = w := by
  apply BitVec.eq_of_toNat_eq; rw [toNat_wordNNN, toNat_famOf, toNat_nnnOf]; omega

theorem wordXNN_fields (w : Word) : wordXNN (famOf w) (xOf w) (nnOf w) = w := by
  apply BitVec.eq_of_toNat_eq; rw [toNat_wordXNN, toNat_famOf, toNat_xOf, toNat_nnOf]; omega

theorem wordXYN_fields (w : Word) : wordXYN (famOf w) (xOf w) (yOf w) (nOf w) = w := by
  apply BitVec.eq_of_toNat_eq; rw [toNat_wordXYN, toNat_famOf, toNat_xOf, toNat_yOf, toNat_nOf]; omega

/-! ### The formats as an or of shifted fields, as the Encoding lines write them -/

theorem wordNNN_eq_or (f : Nibble) (nnn : Addr12) : wordNNN f nnn = Machine.orNNN (wordNNN f 0) nnn := by
  unfold wordNNN Machine.orNNN
  apply BitVec.eq_of_getLsbD_eq
  intro i hi
  simp only [BitVec.getLsbD_or, BitVec.getLsbD_append, BitVec.getLsbD_setWidth, hi, decide_true, Bool.true_and]
  by_cases h : i < 12 <;> simp [h]
  have := nnn.getLsbD_of_ge i (by omega)
  simp [this]

theorem wordXNN_eq_or (f x : Nibble) (nn : Byte) : wordXNN f x nn = Machine.orXNN (wordXNN f 0 0) x nn := by
  unfold wordXNN Machine.orXNN
  apply BitVec.eq_of_getLsbD_eq
  intro i hi
  simp only [BitVec.getLsbD_or, BitVec.getLsbD_append, BitVec.getLsbD_setWidth, BitVec.getLsbD_shiftLeft, hi, decide_true,
    Bool.true_and]
  by_cases h : i < 8
  · simp [h]
  · have hn := nn.getLsbD_of_ge i (by omega)
    by_cases h2 : i < 12
    · simp [h, hn, show i - 8 < 4 by omega, show i - 8 < 16 by omega]
    · have hx := x.getLsbD_of_ge (i - 8) (by omega)
      simp [h, hn, hx, show ¬ i - 8 < 4 by omega]

theorem wordXYN_eq_or (f x y n : Nibble) :
    wordXYN f x y n = Machine.orXY (wordXYN f 0 0 0) x y ||| n.setWidth 16 := by
  unfold wordXYN Machine.orXY
  apply BitVec.eq_of_getLsbD_eq
  intro i hi
  simp only [BitVec.getLsbD_or, BitVec.getLsbD_append, BitVec.getLsbD_setWidth, BitVec.getLsbD_shiftLeft, hi, decide_true,
    Bool.true_and]
  by_cases h : i < 4
  · simp [h, show i < 8 by omega]
  · have hn := n.getLsbD_of_ge i (by omega)
    by_cases h2 : i < 8
    · simp [h, h2, hn, show i - 4 < 4 by omega, show i - 4 < 16 by omega]
    · have hy := y.getLsbD_of_ge (i - 4) (by omega)
      by_cases h3 : i < 12
      · simp [h, h2, hn, hy, show ¬ i - 4 < 4 by omega, show i - 8 < 4 by omega, show i - 4 - 4 = i - 8 by omega,
          show i - 8 < 16 by omega]
      · have hx := x.getLsbD_of_ge (i - 8) (by omega)
        simp [h, h2, hn, hy, hx, show ¬ i - 4 < 4 by omega, show ¬ i - 4 - 4 < 4 by omega]

/-- Format `X`: the secondary code belongs to the base. -/
theorem wordXNN_eq_orX (f x : Nibble) (nn : Byte) : wordXNN f x nn = Machine.orX (wordXNN f 0 nn) x := by
  rw [wordXNN_eq_or f x, wordXNN_eq_or f 0 nn]
  simp only [Machine.orX, Machine.orXNN]
  have : (BitVec.setWidth 16 (0 : Nibble) <<< 8 : Word) = 0#16 := by decide
  rw [this, BitVec.or_zero, BitVec.or_assoc, BitVec.or_assoc, BitVec.or_comm (nn.setWidth 16)]

/-- Format `XY`: the secondary code belongs to the base. -/
theorem wordXYN_eq_orXY (f x y n : Nibble) : wordXYN f x y n = Machine.orXY (wordXYN f 0 0 n) x y := by
  rw [wordXYN_eq_or f x, wordXYN_eq_or f 0 0 n]
  simp only [Machine.orXY]
  have h8 : (BitVec.setWidth 16 (0 : Nibble) <<< 8 : Word) = 0#16 := by decide
  have h4 : (BitVec.setWidth 16 (0 : Nibble) <<< 4 : Word) = 0#16 := by decide
  rw [h8, h4, BitVec.or_zero, BitVec.or_zero]
  simp only [BitVec.or_assoc]
  rw [BitVec.or_comm (n.setWidth 16), BitVec.or_assoc]

/-! ### Masking a word (R69, R73) -/

/-- Masking goes nibble by nibble. -/
theorem wordXYN_and (f x y n a b c d : Nibble) :
    wordXYN f x y n &&& wordXYN a b c d = wordXYN (f &&& a) (x &&& b) (y &&& c) (n &&& d) := by
  have h : (f ++ x ++ y ++ n) &&& (a ++ b ++ c ++ d) = (f &&& a) ++ (x &&& b) ++ (y &&& c) ++ (n &&& d) := by
    rw [BitVec.and_append, BitVec.and_append, BitVec.and_append]
  exact h

/-- Two words are equal exactly when their nibbles are. -/
theorem wordXYN_inj (f x y n a b c d : Nibble) :
    wordXYN f x y n = wordXYN a b c d ↔ f = a ∧ x = b ∧ y = c ∧ n = d := by
  refine ⟨fun h => ?_, fun ⟨h1, h2, h3, h4⟩ => by rw [h1, h2, h3, h4]⟩
  exact ⟨by simpa using congrArg famOf h, by simpa using congrArg xOf h, by simpa using congrArg yOf h,
    by simpa using congrArg nOf h⟩

/-- The low byte is its two nibbles. -/
theorem nnOf_eq_iff (w p : Word) : nnOf w = nnOf p ↔ yOf w = yOf p ∧ nOf w = nOf p := by
  simp only [← BitVec.toNat_inj, toNat_nnOf, toNat_yOf, toNat_nOf]
  omega

/-- Matching under mask 0xF000 is matching the family. -/
theorem and_F000_eq_iff {w p : Word} (hp : p &&& 0xF000 = p) : w &&& 0xF000 = p ↔ famOf w = famOf p := by
  have hz : ∀ n : Nibble, n &&& 0 = 0 ∧ n &&& 15 = n := by decide
  have h : ∀ w : Word, w &&& 0xF000 = wordXYN (famOf w) 0 0 0 := fun w => by
    conv => lhs; rw [← wordXYN_fields w]
    exact (wordXYN_and _ _ _ _ 15 0 0 0).trans (by simp only [hz])
  rw [← hp, h, h, wordXYN_inj, famOf_wordXYN]
  simp

/-- Matching under mask 0xF00F is matching the family and the low nibble. -/
theorem and_F00F_eq_iff {w p : Word} (hp : p &&& 0xF00F = p) :
    w &&& 0xF00F = p ↔ famOf w = famOf p ∧ nOf w = nOf p := by
  have hz : ∀ n : Nibble, n &&& 0 = 0 ∧ n &&& 15 = n := by decide
  have h : ∀ w : Word, w &&& 0xF00F = wordXYN (famOf w) 0 0 (nOf w) := fun w => by
    conv => lhs; rw [← wordXYN_fields w]
    exact (wordXYN_and _ _ _ _ 15 0 0 15).trans (by simp only [hz])
  rw [← hp, h, h, wordXYN_inj, famOf_wordXYN, nOf_wordXYN]
  simp

/-- Matching under mask 0xF0FF is matching the family and the low byte. -/
theorem and_F0FF_eq_iff {w p : Word} (hp : p &&& 0xF0FF = p) :
    w &&& 0xF0FF = p ↔ famOf w = famOf p ∧ nnOf w = nnOf p := by
  have hz : ∀ n : Nibble, n &&& 0 = 0 ∧ n &&& 15 = n := by decide
  have h : ∀ w : Word, w &&& 0xF0FF = wordXYN (famOf w) 0 (yOf w) (nOf w) := fun w => by
    conv => lhs; rw [← wordXYN_fields w]
    exact (wordXYN_and _ _ _ _ 15 0 15 15).trans (by simp only [hz])
  rw [nnOf_eq_iff, ← hp, h, h, wordXYN_inj, famOf_wordXYN, yOf_wordXYN, nOf_wordXYN]
  simp

/-! ### A step of decoding -/

/-- A nibble is one of sixteen. -/
theorem nibble_cases (f : Nibble) :
    f = 0 ∨ f = 1 ∨ f = 2 ∨ f = 3 ∨ f = 4 ∨ f = 5 ∨ f = 6 ∨ f = 7 ∨ f = 8 ∨ f = 9 ∨ f = 10 ∨ f = 11 ∨ f = 12 ∨
      f = 13 ∨ f = 14 ∨ f = 15 := by
  revert f; decide

end Sys2Proof
end

