-- ==== Sys2Proof/Laws/State.lean ====
section
/-! SUPPORT. One lemma for each field of State under each update the operations make, and the laws of the register file. -/

namespace Sys2Proof.Machine

/-! ### The widths of R5 as numerals, and the values computed at them

`simp only [pcWidth_eq] at *` (or the width at hand) comes before `bv_omega` on the fields that have these widths. -/

@[simp] theorem iWidth_eq : Config.iWidth = 16 := rfl
@[simp] theorem pcWidth_eq : Config.pcWidth = 16 := rfl
@[simp] theorem stackEntryWidth_eq : Config.stackEntryWidth = 16 := rfl
@[simp] theorem timerWidth_eq : Config.timerWidth = 8 := rfl

@[simp] theorem instrStep_eq : instrStep = 2 := rfl

@[simp] theorem addrToPC_toNat (a : Addr12) : (addrToPC a).toNat = a.toNat :=
  BitVec.toNat_setWidth_of_le (by decide)
@[simp] theorem addrToI_toNat (a : Addr12) : (addrToI a).toNat = a.toNat := BitVec.toNat_setWidth_of_le (by decide)
@[simp] theorem byteToPC_toNat (b : Byte) : (byteToPC b).toNat = b.toNat := BitVec.toNat_setWidth_of_le (by decide)
@[simp] theorem byteToI_toNat (b : Byte) : (byteToI b).toNat = b.toNat := BitVec.toNat_setWidth_of_le (by decide)
@[simp] theorem glyphAddress_toNat (b : Byte) : (glyphAddress b).toNat = 80 + 5 * b.toNat :=
  Nat.mod_eq_of_lt (show 80 + 5 * b.toNat < 65536 by have := b.isLt; omega)

theorem pc_lt (s : State) : s.pc.toNat < 65536 := s.pc.isLt
theorem i_lt (s : State) : s.i.toNat < 65536 := s.i.isLt

/-! ### `setV` -/

@[simp] theorem setV_mem (s : State) (x : RegIdx) (b : Byte) : (s.setV x b).mem = s.mem := rfl
@[simp] theorem setV_i (s : State) (x : RegIdx) (b : Byte) : (s.setV x b).i = s.i := rfl
@[simp] theorem setV_pc (s : State) (x : RegIdx) (b : Byte) : (s.setV x b).pc = s.pc := rfl
@[simp] theorem setV_sp (s : State) (x : RegIdx) (b : Byte) : (s.setV x b).sp = s.sp := rfl
@[simp] theorem setV_stack (s : State) (x : RegIdx) (b : Byte) : (s.setV x b).stack = s.stack := rfl
@[simp] theorem setV_dt (s : State) (x : RegIdx) (b : Byte) : (s.setV x b).dt = s.dt := rfl
@[simp] theorem setV_st (s : State) (x : RegIdx) (b : Byte) : (s.setV x b).st = s.st := rfl
@[simp] theorem setV_fb (s : State) (x : RegIdx) (b : Byte) : (s.setV x b).fb = s.fb := rfl
@[simp] theorem setV_keys (s : State) (x : RegIdx) (b : Byte) : (s.setV x b).keys = s.keys := rfl
@[simp] theorem setV_kw (s : State) (x : RegIdx) (b : Byte) : (s.setV x b).kw = s.kw := rfl
@[simp] theorem setV_status (s : State) (x : RegIdx) (b : Byte) : (s.setV x b).status = s.status := rfl
@[simp] theorem setV_faulted (s : State) (x : RegIdx) (b : Byte) : (s.setV x b).faulted = s.faulted := rfl
@[simp] theorem setV_rand (s : State) (x : RegIdx) (b : Byte) : (s.setV x b).rand = s.rand := rfl
@[simp] theorem setV_draws (s : State) (x : RegIdx) (b : Byte) : (s.setV x b).draws = s.draws := rfl

/-! ### `setFlagged` -/

@[simp] theorem setFlagged_mem (s : State) (x : RegIdx) (f b : Byte) : (s.setFlagged x f b).mem = s.mem := rfl
@[simp] theorem setFlagged_i (s : State) (x : RegIdx) (f b : Byte) : (s.setFlagged x f b).i = s.i := rfl
@[simp] theorem setFlagged_pc (s : State) (x : RegIdx) (f b : Byte) : (s.setFlagged x f b).pc = s.pc := rfl
@[simp] theorem setFlagged_sp (s : State) (x : RegIdx) (f b : Byte) : (s.setFlagged x f b).sp = s.sp := rfl
@[simp] theorem setFlagged_stack (s : State) (x : RegIdx) (f b : Byte) : (s.setFlagged x f b).stack = s.stack := rfl
@[simp] theorem setFlagged_dt (s : State) (x : RegIdx) (f b : Byte) : (s.setFlagged x f b).dt = s.dt := rfl
@[simp] theorem setFlagged_st (s : State) (x : RegIdx) (f b : Byte) : (s.setFlagged x f b).st = s.st := rfl
@[simp] theorem setFlagged_fb (s : State) (x : RegIdx) (f b : Byte) : (s.setFlagged x f b).fb = s.fb := rfl
@[simp] theorem setFlagged_keys (s : State) (x : RegIdx) (f b : Byte) : (s.setFlagged x f b).keys = s.keys := rfl
@[simp] theorem setFlagged_kw (s : State) (x : RegIdx) (f b : Byte) : (s.setFlagged x f b).kw = s.kw := rfl
@[simp] theorem setFlagged_status (s : State) (x : RegIdx) (f b : Byte) : (s.setFlagged x f b).status = s.status := rfl
@[simp] theorem setFlagged_faulted (s : State) (x : RegIdx) (f b : Byte) : (s.setFlagged x f b).faulted = s.faulted := rfl
@[simp] theorem setFlagged_rand (s : State) (x : RegIdx) (f b : Byte) : (s.setFlagged x f b).rand = s.rand := rfl
@[simp] theorem setFlagged_draws (s : State) (x : RegIdx) (f b : Byte) : (s.setFlagged x f b).draws = s.draws := rfl

/-! ### `advance` -/

@[simp] theorem advance_mem (s : State) : (s.advance).mem = s.mem := rfl
@[simp] theorem advance_v (s : State) : (s.advance).v = s.v := rfl
@[simp] theorem advance_i (s : State) : (s.advance).i = s.i := rfl
@[simp] theorem advance_sp (s : State) : (s.advance).sp = s.sp := rfl
@[simp] theorem advance_stack (s : State) : (s.advance).stack = s.stack := rfl
@[simp] theorem advance_dt (s : State) : (s.advance).dt = s.dt := rfl
@[simp] theorem advance_st (s : State) : (s.advance).st = s.st := rfl
@[simp] theorem advance_fb (s : State) : (s.advance).fb = s.fb := rfl
@[simp] theorem advance_keys (s : State) : (s.advance).keys = s.keys := rfl
@[simp] theorem advance_kw (s : State) : (s.advance).kw = s.kw := rfl
@[simp] theorem advance_faulted (s : State) : (s.advance).faulted = s.faulted := rfl
@[simp] theorem advance_rand (s : State) : (s.advance).rand = s.rand := rfl
@[simp] theorem advance_draws (s : State) : (s.advance).draws = s.draws := rfl

/-! ### `skip` -/

@[simp] theorem skip_mem (s : State) : (s.skip).mem = s.mem := rfl
@[simp] theorem skip_v (s : State) : (s.skip).v = s.v := rfl
@[simp] theorem skip_i (s : State) : (s.skip).i = s.i := rfl
@[simp] theorem skip_sp (s : State) : (s.skip).sp = s.sp := rfl
@[simp] theorem skip_stack (s : State) : (s.skip).stack = s.stack := rfl
@[simp] theorem skip_dt (s : State) : (s.skip).dt = s.dt := rfl
@[simp] theorem skip_st (s : State) : (s.skip).st = s.st := rfl
@[simp] theorem skip_fb (s : State) : (s.skip).fb = s.fb := rfl
@[simp] theorem skip_keys (s : State) : (s.skip).keys = s.keys := rfl
@[simp] theorem skip_kw (s : State) : (s.skip).kw = s.kw := rfl
@[simp] theorem skip_status (s : State) : (s.skip).status = s.status := rfl
@[simp] theorem skip_faulted (s : State) : (s.skip).faulted = s.faulted := rfl
@[simp] theorem skip_rand (s : State) : (s.skip).rand = s.rand := rfl
@[simp] theorem skip_draws (s : State) : (s.skip).draws = s.draws := rfl

/-! ### `stay` -/

@[simp] theorem stay_mem (s : State) : (s.stay).mem = s.mem := rfl
@[simp] theorem stay_v (s : State) : (s.stay).v = s.v := rfl
@[simp] theorem stay_i (s : State) : (s.stay).i = s.i := rfl
@[simp] theorem stay_sp (s : State) : (s.stay).sp = s.sp := rfl
@[simp] theorem stay_stack (s : State) : (s.stay).stack = s.stack := rfl
@[simp] theorem stay_dt (s : State) : (s.stay).dt = s.dt := rfl
@[simp] theorem stay_st (s : State) : (s.stay).st = s.st := rfl
@[simp] theorem stay_fb (s : State) : (s.stay).fb = s.fb := rfl
@[simp] theorem stay_keys (s : State) : (s.stay).keys = s.keys := rfl
@[simp] theorem stay_kw (s : State) : (s.stay).kw = s.kw := rfl
@[simp] theorem stay_status (s : State) : (s.stay).status = s.status := rfl
@[simp] theorem stay_faulted (s : State) : (s.stay).faulted = s.faulted := rfl
@[simp] theorem stay_rand (s : State) : (s.stay).rand = s.rand := rfl
@[simp] theorem stay_draws (s : State) : (s.stay).draws = s.draws := rfl

/-! ### `done` -/

@[simp] theorem done_mem (s : State) : (s.done).mem = s.mem := rfl
@[simp] theorem done_v (s : State) : (s.done).v = s.v := rfl
@[simp] theorem done_i (s : State) : (s.done).i = s.i := rfl
@[simp] theorem done_pc (s : State) : (s.done).pc = s.pc := rfl
@[simp] theorem done_sp (s : State) : (s.done).sp = s.sp := rfl
@[simp] theorem done_stack (s : State) : (s.done).stack = s.stack := rfl
@[simp] theorem done_dt (s : State) : (s.done).dt = s.dt := rfl
@[simp] theorem done_st (s : State) : (s.done).st = s.st := rfl
@[simp] theorem done_fb (s : State) : (s.done).fb = s.fb := rfl
@[simp] theorem done_keys (s : State) : (s.done).keys = s.keys := rfl
@[simp] theorem done_kw (s : State) : (s.done).kw = s.kw := rfl
@[simp] theorem done_faulted (s : State) : (s.done).faulted = s.faulted := rfl
@[simp] theorem done_rand (s : State) : (s.done).rand = s.rand := rfl
@[simp] theorem done_draws (s : State) : (s.done).draws = s.draws := rfl

@[simp] theorem advance_pc (s : State) : s.advance.pc = s.pc + 2 := rfl
@[simp] theorem advance_status (s : State) : s.advance.status = .ok := rfl
@[simp] theorem skip_pc (s : State) : s.skip.pc = s.pc + 2 := rfl
@[simp] theorem stay_pc (s : State) : s.stay.pc = s.pc - 2 := rfl
@[simp] theorem done_status (s : State) : s.done.status = .ok := rfl

/-! ### `skipIf` -/

@[simp] theorem skipIf_mem (c : Bool) (s : State) : (s.skipIf c).mem = s.mem := by cases c <;> rfl
@[simp] theorem skipIf_v (c : Bool) (s : State) : (s.skipIf c).v = s.v := by cases c <;> rfl
@[simp] theorem skipIf_i (c : Bool) (s : State) : (s.skipIf c).i = s.i := by cases c <;> rfl
@[simp] theorem skipIf_sp (c : Bool) (s : State) : (s.skipIf c).sp = s.sp := by cases c <;> rfl
@[simp] theorem skipIf_stack (c : Bool) (s : State) : (s.skipIf c).stack = s.stack := by cases c <;> rfl
@[simp] theorem skipIf_dt (c : Bool) (s : State) : (s.skipIf c).dt = s.dt := by cases c <;> rfl
@[simp] theorem skipIf_st (c : Bool) (s : State) : (s.skipIf c).st = s.st := by cases c <;> rfl
@[simp] theorem skipIf_fb (c : Bool) (s : State) : (s.skipIf c).fb = s.fb := by cases c <;> rfl
@[simp] theorem skipIf_keys (c : Bool) (s : State) : (s.skipIf c).keys = s.keys := by cases c <;> rfl
@[simp] theorem skipIf_kw (c : Bool) (s : State) : (s.skipIf c).kw = s.kw := by cases c <;> rfl
@[simp] theorem skipIf_status (c : Bool) (s : State) : (s.skipIf c).status = s.status := by cases c <;> rfl
@[simp] theorem skipIf_faulted (c : Bool) (s : State) : (s.skipIf c).faulted = s.faulted := by cases c <;> rfl
@[simp] theorem skipIf_rand (c : Bool) (s : State) : (s.skipIf c).rand = s.rand := by cases c <;> rfl
@[simp] theorem skipIf_draws (c : Bool) (s : State) : (s.skipIf c).draws = s.draws := by cases c <;> rfl
@[simp] theorem skipIf_pc (c : Bool) (s : State) : (s.skipIf c).pc = if c then s.pc + 2 else s.pc := by cases c <;> rfl

/-- A taken skip leaves PC at own address + 4 (R91). -/
theorem advance_skip_pc (s : State) : s.advance.skip.pc = s.pc + 4 := BitVec.add_assoc s.pc 2#16 2#16
/-- A waiting FX0A leaves PC at its own address (R144). -/
theorem advance_stay_pc (s : State) : s.advance.stay.pc = s.pc := BitVec.add_sub_cancel s.pc 2#16
theorem advance_pc_toNat (s : State) : s.advance.pc.toNat = (s.pc.toNat + 2) % 65536 := BitVec.toNat_add s.pc 2#16
theorem stay_pc_toNat (s : State) : s.stay.pc.toNat = (s.pc.toNat + 65534) % 65536 :=
  (BitVec.toNat_sub s.pc 2#16).trans (congrArg (· % 65536) (Nat.add_comm _ _))
theorem skipIf_pc_toNat (c : Bool) (s : State) :
    (s.skipIf c).pc.toNat = (s.pc.toNat + if c then 2 else 0) % 65536 := by
  cases c
  · exact (Nat.mod_eq_of_lt (pc_lt s)).symm
  · exact BitVec.toNat_add s.pc 2#16

/-! ### The register file -/

theorem getV_setV (s : State) (x r : RegIdx) (b : Byte) : (s.setV x b).getV r = if r = x then b else s.getV r := by
  simp only [State.getV, State.setV, Vector.getElem_set, BitVec.toNat_inj, eq_comm]

@[simp] theorem getV_setV_same (s : State) (x : RegIdx) (b : Byte) : (s.setV x b).getV x = b := by simp [getV_setV]

theorem getV_setV_ne (s : State) {x r : RegIdx} (h : r ≠ x) (b : Byte) : (s.setV x b).getV r = s.getV r := by
  simp [getV_setV, h]

theorem getV_setFlagged (s : State) (x r : RegIdx) (f b : Byte) :
    (s.setFlagged x f b).getV r = if r = x then b else if r = regF then f else s.getV r := by
  simp only [State.setFlagged, getV_setV]

/-- A register reads the same in two states with the same register file. -/
theorem getV_congr {s t : State} (h : t.v = s.v) (r : RegIdx) : t.getV r = s.getV r := by
  simp only [State.getV, h]

@[simp] theorem getV_skipIf (c : Bool) (s : State) (r : RegIdx) : (s.skipIf c).getV r = s.getV r := getV_congr (by simp) r
@[simp] theorem getV_stay (s : State) (r : RegIdx) : s.stay.getV r = s.getV r := rfl
@[simp] theorem getV_advance (s : State) (r : RegIdx) : s.advance.getV r = s.getV r := rfl

theorem skipIf_eq (c : Bool) (s : State) : s.skipIf c = { s with pc := (s.skipIf c).pc } := by cases c <;> rfl

/-- Writing one register is a change of that register only. -/
theorem setV_onlyRegister (s : State) (x : RegIdx) (b : Byte) : onlyRegister x s (s.setV x b) :=
  ⟨fun _ h => getV_setV_ne s h b, rfl⟩

/-- Writing a flag and a result is a change of that register and VF only. -/
theorem setFlagged_onlyRegisterAndFlag (s : State) (x : RegIdx) (f b : Byte) :
    onlyRegisterAndFlag x s (s.setFlagged x f b) :=
  ⟨fun r h hF => by simp [getV_setFlagged, h, hF], rfl⟩

/-! ### Block writes -/

/-- After a block write from register `j`, register `k` holds its byte of the block, or what it held. -/
theorem writeRegsFrom_getElem (bytes : List Byte) (j : Nat) (v : Vector Byte Config.nReg) (k : Nat) (hk : k < 16) :
    (writeRegsFrom j bytes v)[k] = if j ≤ k then bytes.getD (k - j) v[k] else v[k] := by
  induction bytes generalizing j v with
  | nil => simp [writeRegsFrom]
  | cons b bs ih =>
    rw [writeRegsFrom, ih]
    by_cases h1 : j + 1 ≤ k
    · have h2 : k - j = (k - (j + 1)) + 1 := by omega
      simp [h1, show j ≤ k by omega, h2, show j ≠ k by omega]
    · by_cases h3 : j = k
      · subst h3
        rw [if_neg h1, if_pos (Nat.le_refl j)]
        simp
      · simp [h1, show ¬ j ≤ k by omega, h3]

theorem regRange_length (s : State) (x : RegIdx) : (s.regRange x).length = x.toNat + 1 := by
  have := x.isLt
  simp only [State.regRange, Vector.length_toList, List.length_take, Config.nReg]
  omega

theorem regRange_getElem? (s : State) (x r : RegIdx) (h : r.toNat ≤ x.toNat) :
    (s.regRange x)[r.toNat]? = some (s.getV r) := by
  have := r.isLt
  simp [State.regRange, State.getV, show r.toNat < x.toNat + 1 by omega]

end Sys2Proof.Machine
end

