-- ==== Sys2Proof/Laws/Memory.lean ====
section
/-! SUPPORT. The laws of memory: a read after a write to the same place gives the value written, a write leaves every other
place alone, every operation keeps the canonical form, and multi-byte accesses are their single bytes. -/

namespace Sys2Proof.Machine

/-! ### The canonical form -/

theorem wfFrom_cons (lo a : Nat) (b : Byte) (m : Memory) :
    Memory.wfFrom lo ((a, b) :: m) = true ↔
      lo ≤ a ∧ a < Config.memSize ∧ b ≠ initialByte a ∧ Memory.wfFrom (a + 1) m = true := by
  simp [Memory.wfFrom, and_assoc]

/-- A lower bound can be lowered. -/
theorem wfFrom_mono {lo lo' : Nat} (h : lo' ≤ lo) {m : Memory} (hm : Memory.wfFrom lo m = true) :
    Memory.wfFrom lo' m = true := by
  cases m with
  | nil => rfl
  | cons c m =>
    rw [wfFrom_cons] at hm ⊢
    exact ⟨by omega, hm.2⟩

/-- No address below the bound is listed. -/
theorem lookup_eq_none_of_lt {lo a : Nat} {m : Memory} (hm : Memory.wfFrom lo m = true) (h : a < lo) :
    m.lookup a = none := by
  induction m generalizing lo with
  | nil => rfl
  | cons c m ih =>
    obtain ⟨k, b⟩ := c
    rw [wfFrom_cons] at hm
    rw [Memory.lookup, if_neg (by omega)]
    exact ih hm.2.2.2 (by omega)

/-- The cell for a byte put in front of a canonical list is canonical. -/
theorem cell_append_wfFrom {lo a : Nat} (b : Byte) {m : Memory} (h : lo ≤ a) (ha : a < Config.memSize)
    (hm : Memory.wfFrom (a + 1) m = true) : Memory.wfFrom lo (Memory.cell a b ++ m) = true := by
  unfold Memory.cell
  split
  · exact wfFrom_mono (by omega) hm
  · exact (wfFrom_cons ..).2 ⟨h, ha, by assumption, hm⟩

theorem put_wfFrom {lo a : Nat} (b : Byte) {m : Memory} (hm : Memory.wfFrom lo m = true) (h : lo ≤ a)
    (ha : a < Config.memSize) : Memory.wfFrom lo (m.put a b) = true := by
  induction m generalizing lo with
  | nil => simpa [Memory.put] using cell_append_wfFrom b h ha (m := []) rfl
  | cons c m ih =>
    obtain ⟨k, d⟩ := c
    rw [wfFrom_cons] at hm
    rw [Memory.put]
    split
    · exact cell_append_wfFrom b h ha ((wfFrom_cons ..).2 ⟨by omega, hm.2⟩)
    · split
      · subst_vars; exact cell_append_wfFrom b h ha hm.2.2.2
      · exact (wfFrom_cons ..).2 ⟨hm.1, hm.2.1, hm.2.2.1, ih hm.2.2.2 (by omega)⟩

/-- Putting a byte inside memory keeps the canonical form. -/
theorem put_wf {a : Nat} (b : Byte) {m : Memory} (hm : m.wf = true) (ha : a < Config.memSize) : (m.put a b).wf = true :=
  put_wfFrom b hm (Nat.zero_le a) ha

/-! ### Read after write -/

theorem lookup_append_cell {a c : Nat} (b : Byte) {m : Memory} (hm : m.lookup a = none) :
    ((Memory.cell a b ++ m).lookup c).getD (initialByte c) =
      if c = a then b else (m.lookup c).getD (initialByte c) := by
  unfold Memory.cell
  split
  · by_cases hc : c = a
    · subst hc; simp [*]
    · simp [hc]
  · by_cases hc : c = a
    · subst hc; simp [Memory.lookup]
    · simp [Memory.lookup, Ne.symm hc, hc]

theorem lookup_put {lo a c : Nat} (b : Byte) {m : Memory} (hm : Memory.wfFrom lo m = true) :
    ((m.put a b).lookup c).getD (initialByte c) = if c = a then b else (m.lookup c).getD (initialByte c) := by
  induction m generalizing lo with
  | nil => simpa [Memory.put] using lookup_append_cell (a := a) (c := c) b (m := []) rfl
  | cons cell m ih =>
    obtain ⟨k, d⟩ := cell
    have hm' := (wfFrom_cons ..).1 hm
    rw [Memory.put]
    split
    · refine lookup_append_cell b ?_
      rw [Memory.lookup, if_neg (by omega)]
      exact lookup_eq_none_of_lt hm'.2.2.2 (by omega)
    · split
      · rename_i hak
        subst hak
        rw [lookup_append_cell b (lookup_eq_none_of_lt hm'.2.2.2 (by omega))]
        by_cases hc : c = a
        · simp [hc]
        · simp [hc, Memory.lookup, Ne.symm hc]
      · by_cases hc : k = c
        · subst hc; simp [Memory.lookup, show ¬ k = a by omega]
        · simp only [Memory.lookup, hc, if_false]
          exact ih hm'.2.2.2

/-- Reading after putting one byte. -/
theorem read_put {a c : Nat} (b : Byte) {m : Memory} (hm : m.wf = true) (ha : a < Config.memSize) :
    (m.put a b).read c = if c = a then some b else m.read c := by
  unfold Memory.read
  rw [lookup_put b hm]
  by_cases hc : c = a
  · subst hc; simp [ha]
  · simp [hc]

theorem read_isSome (m : Memory) {a : Nat} (h : a < Config.memSize) : ∃ b, m.read a = some b := by
  simp [Memory.read, h]

theorem read_eq_none (m : Memory) {a : Nat} (h : ¬ a < Config.memSize) : m.read a = none := by
  simp [Memory.read, h]

theorem write_eq (m : Memory) {a : Nat} (b : Byte) (h : a < Config.memSize) : m.write a b = some (m.put a b) := by
  simp [Memory.write, h]

/-! ### Several bytes -/

/-- Reading `n` bytes inside memory gives the `n` single bytes. -/
theorem readBytes_spec (m : Memory) {a n : Nat} (h : a + n ≤ Config.memSize) :
    ∃ bs, m.readBytes a n = some bs ∧ bs.length = n ∧ ∀ j, j < n → bs[j]? = m.read (a + j) := by
  induction n generalizing a with
  | zero => exact ⟨[], rfl, rfl, fun j hj => absurd hj (Nat.not_lt_zero j)⟩
  | succ n ih =>
    obtain ⟨b, hb⟩ := read_isSome m (show a < Config.memSize by omega)
    obtain ⟨bs, h1, h2, h3⟩ := ih (a := a + 1) (by omega)
    refine ⟨b :: bs, by simp only [Memory.readBytes, hb, h1], by simp [h2], fun j hj => ?_⟩
    cases j with
    | zero => simp [hb]
    | succ j =>
      rw [List.getElem?_cons_succ, h3 j (by omega)]
      congr 1; omega

/-- Writing bytes inside memory succeeds, keeps the canonical form, puts each byte in its place and leaves every other place
alone. -/
theorem writeBytes_spec {m : Memory} (hm : m.wf = true) {a : Nat} {bs : List Byte}
    (h : a + bs.length ≤ Config.memSize) :
    ∃ m', m.writeBytes a bs = some m' ∧ m'.wf = true ∧
      ∀ c, m'.read c = if a ≤ c ∧ c < a + bs.length then bs[c - a]? else m.read c := by
  induction bs generalizing m a with
  | nil => exact ⟨m, rfl, hm, fun c => by rw [if_neg (by simp only [List.length_nil]; omega)]⟩
  | cons b bs ih =>
    simp only [List.length_cons] at h
    have ha : a < Config.memSize := by omega
    obtain ⟨m', h1, h2, h3⟩ := ih (put_wf b hm ha) (a := a + 1) (by omega)
    refine ⟨m', by simp only [Memory.writeBytes, write_eq m b ha, h1], h2, fun c => ?_⟩
    rw [h3, List.length_cons]
    by_cases h4 : a + 1 ≤ c ∧ c < a + 1 + bs.length
    · rw [if_pos h4, if_pos (by omega), show c - a = (c - (a + 1)) + 1 by omega, List.getElem?_cons_succ]
    · rw [if_neg h4, read_put b hm ha]
      by_cases h5 : c = a
      · subst h5; simp
      · rw [if_neg h5, if_neg (by omega)]

/-- Writing inside memory succeeds, canonical or not. -/
theorem writeBytes_isSome (m : Memory) {a : Nat} {bs : List Byte} (h : a + bs.length ≤ Config.memSize) :
    ∃ m', m.writeBytes a bs = some m' := by
  induction bs generalizing m a with
  | nil => exact ⟨m, rfl⟩
  | cons b bs ih =>
    simp only [List.length_cons] at h
    simp only [Memory.writeBytes, write_eq m b (show a < Config.memSize by omega)]
    exact ih _ (by omega)

/-- Whatever a write of bytes answers is canonical if the memory was. -/
theorem writeBytes_wf {m m' : Memory} (hm : m.wf = true) {a : Nat} {bs : List Byte}
    (h : m.writeBytes a bs = some m') : m'.wf = true := by
  induction bs generalizing m a with
  | nil => simp only [Memory.writeBytes, Option.some.injEq] at h; exact h ▸ hm
  | cons b bs ih =>
    simp only [Memory.writeBytes, Memory.write] at h
    by_cases ha : a < Config.memSize
    · rw [if_pos ha] at h; exact ih (put_wf b hm ha) h
    · rw [if_neg ha] at h; exact absurd h (by simp)

/-- The word at an address whose two bytes are inside memory. -/
theorem readWord_isSome (m : Memory) {a : Nat} (h : a + 1 < Config.memSize) : ∃ w, m.readWord a = some w := by
  obtain ⟨hi, h1⟩ := read_isSome m (show a < Config.memSize by omega)
  obtain ⟨lo, h2⟩ := read_isSome m h
  exact ⟨hi ++ lo, by simp only [Memory.readWord, h1, h2]⟩

theorem readWord_eq {m : Memory} {a : Nat} {hi lo : Byte} (h1 : m.read a = some hi) (h2 : m.read (a + 1) = some lo) :
    m.readWord a = some (hi ++ lo) := by
  simp only [Memory.readWord, h1, h2]

/-- The memory that lists nothing is canonical. -/
theorem reset_mem_wf : State.reset.mem.wf = true := rfl

end Sys2Proof.Machine
end

