-- ==== Sys2Proof/Laws/Ops.lean ====
section
/-! SUPPORT. One lemma for each shared operation that says everything it can do; the provers cite these instead of unfolding
the operation. -/

namespace Sys2Proof.Machine

/-! ### Errors -/

theorem raise_next {e : Status} {s t : State} (h : raise e s = .next t) :
    t = { s with status := e, faulted := true } := by
  simp only [raise, Host.Outcome.next.injEq] at h; exact h.symm

/-! ### Range checks -/

theorem inRange_iff (lo hi : Nat) : inRange lo hi = true ↔ hi ≤ 4095 := by simp [inRange]

/-- A checked access runs in full, or raises with none of its effect. -/
theorem checkRange_cases (lo hi : Nat) (s : State) (k : State → Result) :
    (hi ≤ 4095 ∧ checkRange lo hi s k = k s) ∨
      (4095 < hi ∧ checkRange lo hi s k = .next { s with status := .addressOutOfRange, faulted := true }) := by
  by_cases h : hi ≤ 4095
  · exact .inl ⟨h, by rw [checkRange, if_pos ((inRange_iff lo hi).2 h)]⟩
  · refine .inr ⟨by omega, ?_⟩
    have : ¬ inRange lo hi = true := fun h' => h ((inRange_iff lo hi).1 h')
    rw [checkRange, if_neg this]; rfl

theorem checkRange_of_le {lo hi : Nat} (h : hi ≤ 4095) (s : State) (k : State → Result) : checkRange lo hi s k = k s := by
  rw [checkRange, if_pos ((inRange_iff lo hi).2 h)]

theorem checkRange_of_gt {lo hi : Nat} (h : 4095 < hi) (s : State) (k : State → Result) :
    checkRange lo hi s k = .next { s with status := .addressOutOfRange, faulted := true } := by
  rcases checkRange_cases lo hi s k with h' | h'
  · omega
  · exact h'.2

/-! ### Bytes of memory -/

/-- Reading bytes inside memory goes on with exactly those bytes. -/
theorem withBytes_spec {a n : Nat} (h : a + n ≤ Config.memSize) (s : State) (k : List Byte → Result) :
    ∃ bs, withBytes a n s k = k bs ∧ bs.length = n ∧ ∀ j, j < n → bs[j]? = s.mem.read (a + j) := by
  obtain ⟨bs, h1, h2, h3⟩ := readBytes_spec s.mem h
  exact ⟨bs, by simp only [withBytes, h1], h2, h3⟩

/-- Storing bytes inside memory answers a next state that differs in memory only; in a canonical memory each byte is then in
its place, every other place is alone, and the form is kept. -/
theorem storeBytes_spec {a : Nat} {bs : List Byte} (h : a + bs.length ≤ Config.memSize) (s : State) :
    ∃ m, storeBytes a bs s = .next { s with mem := m } ∧
      (s.mem.wf = true → m.wf = true ∧
        ∀ c, m.read c = if a ≤ c ∧ c < a + bs.length then bs[c - a]? else s.mem.read c) := by
  obtain ⟨m, hm⟩ := writeBytes_isSome s.mem h
  refine ⟨m, by simp only [storeBytes, hm], fun hw => ?_⟩
  obtain ⟨m', h1, h2, h3⟩ := writeBytes_spec hw h
  have : m' = m := Option.some.inj (h1.symm.trans hm)
  exact this ▸ ⟨h2, h3⟩

/-- A store that answers a next state changed memory only, and kept its form. -/
theorem storeBytes_next {a : Nat} {bs : List Byte} {s t : State} (h : storeBytes a bs s = .next t) :
    t = { s with mem := t.mem } ∧ (s.mem.wf = true → t.mem.wf = true) := by
  unfold storeBytes at h
  split at h
  · rename_i m hm
    simp only [Host.Outcome.next.injEq] at h
    subst h
    exact ⟨rfl, fun hw => writeBytes_wf hw hm⟩
  · exact absurd h (by simp)

/-! ### The call stack -/

/-- A push on a stack that is not full. -/
theorem push_of_lt {s : State} (h : s.sp.val < Config.stackDepth) (a : Word) :
    s.push a = some { s with stack := s.stack.set s.sp.val a h, sp := ⟨s.sp.val + 1, Nat.succ_lt_succ h⟩ } := by
  simp only [State.push, h, dite_true]

/-- A push on a full stack does not happen. -/
theorem push_of_full {s : State} (h : s.sp = 16) (a : Word) : s.push a = none := by
  simp only [State.push, h]
  rfl

/-- Everything a push can do. -/
theorem push_cases (s : State) (a : Word) :
    (∃ h : s.sp.val < Config.stackDepth,
      s.push a = some { s with stack := s.stack.set s.sp.val a h, sp := ⟨s.sp.val + 1, Nat.succ_lt_succ h⟩ }) ∨
      (s.sp = 16 ∧ s.push a = none) := by
  by_cases h : s.sp.val < Config.stackDepth
  · exact .inl ⟨h, push_of_lt h a⟩
  · have h16 : s.sp = 16 := by
      apply Fin.ext
      have := s.sp.isLt
      simp only [Config.stackDepth] at h this
      show s.sp.val = 16
      omega
    exact .inr ⟨h16, push_of_full h16 a⟩

/-- Everything a pop can do. -/
theorem pop_cases (s : State) :
    (∃ n, ∃ h : n < Config.stackDepth, s.sp.val = n + 1 ∧
      s.pop = some (s.stack[n], { s with sp := ⟨n, Nat.lt_succ_of_lt h⟩ })) ∨
      (s.sp = 0 ∧ s.pop = none) := by
  rcases hsp : s.sp with ⟨n, hn⟩
  cases n with
  | zero => exact .inr ⟨rfl, by simp only [State.pop, hsp]⟩
  | succ n => exact .inl ⟨n, Nat.lt_of_succ_lt_succ hn, rfl, by simp only [State.pop, hsp]⟩

/-! ### Fetch -/

theorem fetchable_iff (s : State) : s.fetchable = true ↔ s.pc.toNat ≤ 4094 := by
  simp only [State.fetchable, decide_eq_true_eq]; exact Iff.rfl

/-- A fetch inside memory gives a word. -/
theorem fetchWord_isSome {s : State} (h : s.fetchable = true) : ∃ w, s.fetchWord = some w := by
  have := (fetchable_iff s).1 h
  exact readWord_isSome s.mem (by simp only [Config.memSize]; omega)

/-- A word is fetched only where a fetch is in range. -/
theorem fetchable_of_fetchWord {s : State} {w : Word} (h : s.fetchWord = some w) : s.fetchable = true := by
  rw [fetchable_iff]
  by_cases hp : s.pc.toNat ≤ 4094
  · exact hp
  · have : s.mem.read (s.pc.toNat + 1) = none := read_eq_none _ (by simp only [Config.memSize]; omega)
    simp [State.fetchWord, Memory.readWord, this] at h

/-- A step on a fetched word is the execution of its instruction after the advance. -/
theorem step_of_fetchWord {s : State} {w : Word} (h : s.fetchWord = some w) : step s = exec (decode w) s.advance := by
  simp only [step, fetchable_of_fetchWord h, if_true, h]

/-- A step out of fetch range changes nothing and reports it. -/
theorem step_of_not_fetchable {s : State} (h : s.fetchable = false) :
    step s = .next { s with status := .fetchOutOfRange, faulted := true } := by
  simp only [step, h]; rfl

/-- Everything a step can do. -/
theorem step_cases (s : State) :
    (∃ w, s.fetchWord = some w ∧ step s = exec (decode w) s.advance) ∨
      (s.fetchable = false ∧ step s = .next { s with status := .fetchOutOfRange, faulted := true }) := by
  cases h : s.fetchable with
  | true =>
    obtain ⟨w, hw⟩ := fetchWord_isSome h
    exact .inl ⟨w, hw, step_of_fetchWord hw⟩
  | false => exact .inr ⟨rfl, step_of_not_fetchable h⟩

/-! ### Timers -/

/-- One countdown takes one, and nothing from 0. -/
theorem countDown_toNat (t : Byte) : (countDown t).toNat = t.toNat - 1 := by revert t; decide

/-! ### Keys -/

/-- A register above 15 names no key; any other names its low nibble. -/
theorem keyOfByte_eq (b : Byte) :
    (15 < b.toNat ∧ keyOfByte b = none) ∨ ∃ k : Key, b.toNat ≤ 15 ∧ keyOfByte b = some k ∧ k.toNat = b.toNat := by
  by_cases h : 15 < b.toNat
  · exact .inl ⟨h, if_pos h⟩
  · refine .inr ⟨b.setWidth 4, by omega, if_neg h, ?_⟩
    rw [BitVec.toNat_setWidth]; omega

/-- Everything a key skip can do. -/
theorem skipOnKey_cases (x : RegIdx) (wanted : Bool) (s : State) :
    (15 < (s.getV x).toNat ∧ skipOnKey x wanted s = .next { s with status := .keyIndexOutOfRange, faulted := true }) ∨
      ((s.getV x).toNat ≤ 15 ∧
        skipOnKey x wanted s = .next (s.skipIf (s.keys.getLsbD (s.getV x).toNat == wanted))) := by
  rcases keyOfByte_eq (s.getV x) with ⟨h, hk⟩ | ⟨k, h, hk, hn⟩
  · exact .inl ⟨h, by simp only [skipOnKey, hk]; rfl⟩
  · exact .inr ⟨h, by simp only [skipOnKey, hk, keyDown, hn]⟩

/-- Everything FX0A can do. -/
theorem execLdVxK_cases (x : RegIdx) (s : State) :
    (s.kw = .idle ∧ lowestKey s.keys = none ∧ execLdVxK x s = .next s.stay) ∨
      (∃ k, s.kw = .idle ∧ lowestKey s.keys = some k ∧ execLdVxK x s = .next { s.stay with kw := .capturedPress k }) ∨
      (∃ k, s.kw = .capturedPress k ∧ keyDown s.keys k = true ∧ execLdVxK x s = .next s.stay) ∨
      ∃ k, s.kw = .capturedPress k ∧ keyDown s.keys k = false ∧
        execLdVxK x s = .next { s.setV x (zextKey k) with kw := .idle } := by
  rcases hk : s.kw with _ | k
  · rcases hl : lowestKey s.keys with _ | k
    · exact .inl ⟨rfl, rfl, by simp only [execLdVxK, hk, hl]⟩
    · exact .inr (.inl ⟨k, rfl, rfl, by simp only [execLdVxK, hk, hl]⟩)
  · cases hd : keyDown s.keys k with
    | true => exact .inr (.inr (.inl ⟨k, rfl, hd, by simp only [execLdVxK, hk, hd]; rfl⟩))
    | false => exact .inr (.inr (.inr ⟨k, rfl, hd, by simp only [execLdVxK, hk, hd]; rfl⟩))

end Sys2Proof.Machine
end

