-- ==== Sys2Proof/Laws/Display.lean ====
section
/-! SUPPORT. What the loops of a draw do, pixel by pixel: the framebuffer is the exclusive or with the sprite, and the
collision flag says whether a set sprite bit met a lit pixel. -/

namespace Sys2Proof.Machine

/-! ### One pixel -/

theorem get_toggle (fb : Framebuffer) (x px : Fin Config.fbW) (y py : Fin Config.fbH) :
    (fb.toggle x y).get px py = if px = x ∧ py = y then !fb.get px py else fb.get px py := by
  simp only [Framebuffer.toggle, Framebuffer.get, Fin.getElem_fin, Vector.getElem_set]
  by_cases hy : y.val = py.val
  · have hy' : y = py := Fin.ext hy
    subst hy'
    by_cases hx : x.val = px.val
    · have hx' : x = px := Fin.ext hx
      subst hx'; simp
    · have hx' : ¬ px = x := fun h => hx (by rw [h])
      simp [hx, hx']
  · have hy' : ¬ py = y := fun h => hy (by rw [h])
    simp [hy, hy']

theorem get_clear (px : Fin Config.fbW) (py : Fin Config.fbH) : Framebuffer.clear.get px py = false := by
  simp [Framebuffer.clear, Framebuffer.get]

/-- Framebuffers with the same pixels are equal. -/
theorem Framebuffer.ext_get {f g : Framebuffer} (h : ∀ x y, f.get x y = g.get x y) : f = g := by
  apply Vector.ext; intro y hy
  apply Vector.ext; intro x hx
  exact h ⟨x, hx⟩ ⟨y, hy⟩

/-- A change of a canvas by a mask of pixels: each pixel of the mask flips, and a hit is recorded when one of them was lit. -/
def changedBy (mask : Fin Config.fbW → Fin Config.fbH → Bool) (c d : Canvas) : Prop :=
  (∀ x y, d.fb.get x y = (c.fb.get x y ^^ mask x y)) ∧
    (d.hit = true ↔ c.hit = true ∨ ∃ x y, mask x y = true ∧ c.fb.get x y = true)

theorem changedBy_congr {m m' : Fin Config.fbW → Fin Config.fbH → Bool} (h : ∀ x y, m x y = m' x y) {c d : Canvas}
    (hc : changedBy m c d) : changedBy m' c d := by
  have : m = m' := funext fun x => funext fun y => h x y
  exact this ▸ hc

theorem changedBy_refl {m : Fin Config.fbW → Fin Config.fbH → Bool} (h : ∀ x y, m x y = false) (c : Canvas) :
    changedBy m c c := by
  refine ⟨fun x y => by simp [h], ⟨.inl, ?_⟩⟩
  rintro (h' | ⟨x, y, h', _⟩)
  · exact h'
  · simp [h] at h'

/-- Two changes by masks that share no pixel make one change by both: "no two bits of one DXYN address the same pixel"
(R132). -/
theorem changedBy_trans {m n : Fin Config.fbW → Fin Config.fbH → Bool} (hd : ∀ x y, (m x y && n x y) = false)
    {a b c : Canvas} (h1 : changedBy m a b) (h2 : changedBy n b c) : changedBy (fun x y => m x y || n x y) a c := by
  constructor
  · intro x y
    rw [h2.1, h1.1]
    have := hd x y
    cases hm : m x y <;> cases hn : n x y <;> cases a.fb.get x y <;> simp_all
  · rw [h2.2, h1.2]
    constructor
    · rintro ((h | ⟨x, y, hm, hl⟩) | ⟨x, y, hn, hl⟩)
      · exact .inl h
      · exact .inr ⟨x, y, by simp [hm], hl⟩
      · refine .inr ⟨x, y, by simp [hn], ?_⟩
        have := hd x y
        rw [h1.1] at hl
        simp_all
    · rintro (h | ⟨x, y, hmn, hl⟩)
      · exact .inl (.inl h)
      · cases hm : m x y with
        | true => exact .inl (.inr ⟨x, y, hm, hl⟩)
        | false =>
          refine .inr ⟨x, y, by simpa [hm] using hmn, ?_⟩
          rw [h1.1, hm]; simpa using hl

theorem plot_changedBy (c : Canvas) (x : Fin Config.fbW) (y : Fin Config.fbH) (bit : Bool) :
    changedBy (fun px py => bit && decide (px = x ∧ py = y)) c (c.plot x y bit) := by
  cases bit with
  | false => exact changedBy_refl (by simp) c
  | true =>
    constructor
    · intro px py
      simp only [Canvas.plot, if_true, get_toggle]
      by_cases h : px = x ∧ py = y <;> simp [h]
    · simp only [Canvas.plot, if_true, Bool.or_eq_true, Bool.true_and, decide_eq_true_eq]
      constructor
      · exact fun h => h.imp_right fun hl => ⟨x, y, ⟨rfl, rfl⟩, hl⟩
      · rintro (h | ⟨_, _, ⟨rfl, rfl⟩, hl⟩)
        · exact .inl h
        · exact .inr hl

/-! ### One row, all rows -/

/-- The bits drawn from column `x` of row `y`. -/
def rowMask (y : Fin Config.fbH) (x : Nat) (bits : List Bool) (px : Fin Config.fbW) (py : Fin Config.fbH) : Bool :=
  decide (py = y ∧ x ≤ px.val) && bits.getD (px.val - x) false

theorem drawBits_changedBy (y : Fin Config.fbH) (x : Nat) (bits : List Bool) (c : Canvas) :
    changedBy (rowMask y x bits) c (drawBits y x bits c) := by
  induction bits generalizing x c with
  | nil => exact changedBy_refl (by simp [rowMask]) c
  | cons bit rest ih =>
    rw [drawBits]
    split
    · rename_i hx
      refine changedBy_congr ?_ (changedBy_trans ?_ (plot_changedBy c ⟨x, hx⟩ y bit) (ih (x + 1) _))
      · intro px py
        by_cases h1 : py = y
        · by_cases h2 : px.val = x
          · simp [rowMask, h1, ← h2, show ¬ px.val + 1 ≤ px.val by omega]
          · by_cases h3 : x ≤ px.val
            · have : px.val - x = (px.val - (x + 1)) + 1 := by omega
              simp [rowMask, h1, Fin.ext_iff, h2, h3, show x + 1 ≤ px.val by omega, this]
            · simp [rowMask, Fin.ext_iff, h2, h3, show ¬ x + 1 ≤ px.val by omega]
        · simp [rowMask, h1]
      · intro px py
        by_cases h2 : px.val = x
        · simp [rowMask, h2, show ¬ x + 1 ≤ x by omega]
        · simp [Fin.ext_iff, h2]
    · rename_i hx
      refine changedBy_refl ?_ c
      intro px py
      have := px.isLt
      simp [rowMask, show ¬ x ≤ px.val by omega]

/-- The bits of a sprite of rows `rows` whose origin is column `x0` of row `y`. -/
def spriteMask (x0 y : Nat) (rows : List Byte) (px : Fin Config.fbW) (py : Fin Config.fbH) : Bool :=
  decide (x0 ≤ px.val ∧ y ≤ py.val) &&
    ((rows[py.val - y]?).map fun b => (spriteBits b).getD (px.val - x0) false).getD false

theorem drawRows_changedBy (x0 y : Nat) (rows : List Byte) (c : Canvas) :
    changedBy (spriteMask x0 y rows) c (drawRows x0 y rows c) := by
  induction rows generalizing y c with
  | nil => exact changedBy_refl (by simp [spriteMask]) c
  | cons b rest ih =>
    rw [drawRows]
    split
    · rename_i hy
      refine changedBy_congr ?_ (changedBy_trans ?_ (drawBits_changedBy ⟨y, hy⟩ x0 (spriteBits b) c) (ih (y + 1) _))
      · intro px py
        by_cases h2 : py.val = y
        · simp [rowMask, spriteMask, ← h2, show ¬ py.val + 1 ≤ py.val by omega]
        · by_cases h3 : y ≤ py.val
          · have : py.val - y = (py.val - (y + 1)) + 1 := by omega
            simp [rowMask, spriteMask, Fin.ext_iff, h2, h3, show y + 1 ≤ py.val by omega, this]
          · simp [rowMask, spriteMask, Fin.ext_iff, h2, h3, show ¬ y + 1 ≤ py.val by omega]
      · intro px py
        by_cases h2 : py.val = y
        · simp [spriteMask, h2, show ¬ y + 1 ≤ y by omega]
        · simp [rowMask, Fin.ext_iff, h2]
    · rename_i hy
      refine changedBy_refl ?_ c
      intro px py
      have := py.isLt
      simp [spriteMask, show ¬ y ≤ py.val by omega]

/-- Column `j` of a sprite byte is bit `7 - j`, and there are eight columns. -/
theorem spriteBits_getD (b : Byte) (j : Nat) : (spriteBits b).getD j false = (decide (j < 8) && b.getLsbD (7 - j)) := by
  match j with
  | 0 | 1 | 2 | 3 | 4 | 5 | 6 | 7 => simp [spriteBits]
  | j + 8 => simp [spriteBits, show ¬ j + 8 < 8 by omega]

/-! ### The whole draw -/

/-- What a draw of `rows` changes: VF is the collision flag, every other register and all else but the framebuffer stay. -/
theorem drawSprite_spec (vx vy : Byte) (rows : List Byte) (s : State) :
    (∀ px py, (drawSprite vx vy rows s).fb.get px py =
        (s.fb.get px py ^^ spriteMask (originX vx) (originY vy) rows px py)) ∧
      ((drawSprite vx vy rows s).getV regF = 1 ∨ (drawSprite vx vy rows s).getV regF = 0) ∧
      ((drawSprite vx vy rows s).getV regF = 1 ↔
        ∃ px py, spriteMask (originX vx) (originY vy) rows px py = true ∧ s.fb.get px py = true) ∧
      (∀ r, r ≠ regF → (drawSprite vx vy rows s).getV r = s.getV r) ∧
      drawSprite vx vy rows s = { s with v := (drawSprite vx vy rows s).v, fb := (drawSprite vx vy rows s).fb } := by
  have h := drawRows_changedBy (originX vx) (originY vy) rows { fb := s.fb, hit := false }
  have hF : (drawSprite vx vy rows s).getV regF =
      flagByte (drawRows (originX vx) (originY vy) rows { fb := s.fb, hit := false }).hit :=
    getV_setV_same s regF _
  refine ⟨h.1, ?_, ?_, fun r hr => getV_setV_ne s hr _, rfl⟩
  · rw [hF]; cases (drawRows (originX vx) (originY vy) rows { fb := s.fb, hit := false }).hit <;> simp [flagByte]
  · rw [hF]
    have h2 := h.2
    cases hh : (drawRows (originX vx) (originY vy) rows { fb := s.fb, hit := false }).hit <;>
      simp_all [flagByte]

end Sys2Proof.Machine
end

