-- ==== Sys2Proof/Laws/Exec.lean ====
section
/-! SUPPORT. For each instruction with more than one outcome, one lemma that says everything it can do. The other meanings are
one update, and `rfl` unfolds them. -/

namespace Sys2Proof.Machine

/-- Everything 2NNN can do (R94). -/
theorem execCall_cases (nnn : Addr12) (s : State) :
    (∃ h : s.sp.val < Config.stackDepth, execCall nnn s = .next { s with
        pc := addrToPC nnn, stack := s.stack.set s.sp.val s.pc h, sp := ⟨s.sp.val + 1, Nat.succ_lt_succ h⟩ }) ∨
      (s.sp = 16 ∧ execCall nnn s = .next { s with status := .stackOverflow, faulted := true }) := by
  rcases push_cases s s.pc with ⟨h, hp⟩ | ⟨h, hp⟩
  · exact .inl ⟨h, by simp only [execCall, hp]⟩
  · exact .inr ⟨h, by simp only [execCall, hp]; rfl⟩

/-- Everything 00EE can do (R93). -/
theorem execRet_cases (s : State) :
    (∃ n, ∃ h : n < Config.stackDepth, s.sp.val = n + 1 ∧
        execRet s = .next { s with pc := s.stack[n], sp := ⟨n, Nat.lt_succ_of_lt h⟩ }) ∨
      (s.sp = 0 ∧ execRet s = .next { s with status := .stackUnderflow, faulted := true }) := by
  rcases pop_cases s with ⟨n, h, hn, hp⟩ | ⟨h, hp⟩
  · exact .inl ⟨n, h, hn, by simp only [execRet, hp]⟩
  · exact .inr ⟨h, by simp only [execRet, hp]; rfl⟩

theorem bcdDigits_length (b : Byte) : (bcdDigits b).length = 3 := rfl

/-- Everything FX33 can do (R123, R48). -/
theorem execLdB_cases (x : RegIdx) (s : State) :
    (s.i.toNat + 2 ≤ 4095 ∧ ∃ m, execLdB x s = .next { s with mem := m } ∧
        (s.mem.wf = true → m.wf = true ∧ ∀ c, m.read c =
          if s.i.toNat ≤ c ∧ c < s.i.toNat + 3 then (bcdDigits (s.getV x))[c - s.i.toNat]? else s.mem.read c)) ∨
      (4095 < s.i.toNat + 2 ∧ execLdB x s = .next { s with status := .addressOutOfRange, faulted := true }) := by
  rcases checkRange_cases s.i.toNat (s.i.toNat + 2) s (storeBytes s.i.toNat (bcdDigits (s.getV x))) with ⟨h, hk⟩ | h
  · have hr : s.i.toNat + (bcdDigits (s.getV x)).length ≤ Config.memSize := by
      rw [bcdDigits_length]; simp only [Config.memSize]; omega
    obtain ⟨m, hm, hs⟩ := storeBytes_spec hr s
    exact .inl ⟨h, m, hk.trans hm, hs⟩
  · exact .inr h

/-- Everything FX55 can do (R124, R48). -/
theorem execStoreRegs_cases (x : RegIdx) (s : State) :
    (s.i.toNat + x.toNat ≤ 4095 ∧ ∃ m, execStoreRegs x s = .next { s with mem := m } ∧
        (s.mem.wf = true → m.wf = true ∧ ∀ c, m.read c =
          if s.i.toNat ≤ c ∧ c ≤ s.i.toNat + x.toNat then (s.regRange x)[c - s.i.toNat]? else s.mem.read c)) ∨
      (4095 < s.i.toNat + x.toNat ∧
        execStoreRegs x s = .next { s with status := .addressOutOfRange, faulted := true }) := by
  rcases checkRange_cases s.i.toNat (s.i.toNat + x.toNat) s (storeBytes s.i.toNat (s.regRange x)) with ⟨h, hk⟩ | h
  · have hr : s.i.toNat + (s.regRange x).length ≤ Config.memSize := by
      rw [regRange_length]; simp only [Config.memSize]; omega
    obtain ⟨m, hm, hs⟩ := storeBytes_spec hr s
    refine .inl ⟨h, m, hk.trans hm, fun hw => ⟨(hs hw).1, fun c => ?_⟩⟩
    rw [(hs hw).2, regRange_length]
    by_cases hc : s.i.toNat ≤ c ∧ c ≤ s.i.toNat + x.toNat
    · rw [if_pos hc, if_pos (by omega)]
    · rw [if_neg hc, if_neg (by omega)]
  · exact .inr h

/-- Everything FX65 can do (R126, R48). -/
theorem execLoadRegs_cases (x : RegIdx) (s : State) :
    (s.i.toNat + x.toNat ≤ 4095 ∧ ∃ bytes, execLoadRegs x s = .next { s with v := writeRegsFrom 0 bytes s.v } ∧
        bytes.length = x.toNat + 1 ∧ ∀ j, j < x.toNat + 1 → bytes[j]? = s.mem.read (s.i.toNat + j)) ∨
      (4095 < s.i.toNat + x.toNat ∧
        execLoadRegs x s = .next { s with status := .addressOutOfRange, faulted := true }) := by
  rcases checkRange_cases s.i.toNat (s.i.toNat + x.toNat) s (fun s => withBytes s.i.toNat (x.toNat + 1) s
      fun bytes => .next { s with v := writeRegsFrom 0 bytes s.v }) with ⟨h, hk⟩ | h
  · obtain ⟨bytes, h1, h2, h3⟩ := withBytes_spec (a := s.i.toNat) (n := x.toNat + 1)
      (by simp only [Config.memSize]; omega) s (fun bytes => .next { s with v := writeRegsFrom 0 bytes s.v })
    exact .inl ⟨h, bytes, hk.trans h1, h2, h3⟩
  · exact .inr h

/-- Everything DXYN can do (R131, R48, R49). -/
theorem execDrw_cases (x y : RegIdx) (n : Nibble) (s : State) :
    ((n = 0 ∨ s.i.toNat + n.toNat - 1 ≤ 4095) ∧
        ∃ rows, execDrw x y n s = .next (drawSprite (s.getV x) (s.getV y) rows s) ∧ rows.length = n.toNat ∧
          ∀ j, j < n.toNat → rows[j]? = s.mem.read (s.i.toNat + j)) ∨
      (1 ≤ n.toNat ∧ 4095 < s.i.toNat + n.toNat - 1 ∧
        execDrw x y n s = .next { s with status := .addressOutOfRange, faulted := true }) := by
  by_cases hn : n = 0
  · subst hn
    exact .inl ⟨.inl rfl, [], rfl, rfl, fun j hj => absurd hj (Nat.not_lt_zero j)⟩
  · have h1 : 1 ≤ n.toNat := by
      rcases Nat.eq_zero_or_pos n.toNat with h | h
      · exact absurd (BitVec.eq_of_toNat_eq h) hn
      · exact h
    rcases checkRange_cases s.i.toNat (s.i.toNat + n.toNat - 1) s (fun s => withBytes s.i.toNat n.toNat s
        fun rows => .next (drawSprite (s.getV x) (s.getV y) rows s)) with ⟨h, hk⟩ | ⟨h, hk⟩
    · obtain ⟨rows, h2, h3, h4⟩ := withBytes_spec (a := s.i.toNat) (n := n.toNat)
        (by simp only [Config.memSize]; omega) s (fun rows => .next (drawSprite (s.getV x) (s.getV y) rows s))
      refine .inl ⟨.inr h, rows, ?_, h3, h4⟩
      rw [execDrw, if_neg hn]
      exact hk.trans h2
    · refine .inr ⟨h1, h, ?_⟩
      rw [execDrw, if_neg hn]
      exact hk

/-- The sprite read from memory is the sprite the rule describes. -/
theorem spriteMask_eq_spriteBitAt {s : State} {n : Nibble} {rows : List Byte} (hl : rows.length = n.toNat)
    (hr : ∀ j, j < n.toNat → rows[j]? = s.mem.read (s.i.toNat + j)) (vx vy : Byte) (px : Fin Config.fbW)
    (py : Fin Config.fbH) :
    spriteMask (originX vx) (originY vy) rows px py = spriteBitAt s vx vy n px py := by
  simp only [spriteMask, spriteBitAt, originX, originY, spriteBits_getD]
  by_cases hy : vy.toNat % 32 ≤ py.val
  · by_cases hj : py.val - vy.toNat % 32 < n.toNat
    · rw [hr _ hj]
      cases s.mem.read (s.i.toNat + (py.val - vy.toNat % 32)) with
      | none => simp
      | some b =>
        by_cases hx : vx.toNat % 64 ≤ px.val
        · by_cases h8 : px.val < vx.toNat % 64 + 8
          · simp [hx, hy, h8, show px.val - vx.toNat % 64 < 8 by omega, show py.val < vy.toNat % 32 + n.toNat by omega]
          · simp [h8, show ¬ px.val - vx.toNat % 64 < 8 by omega]
        · simp [hx]
    · have : rows[py.val - vy.toNat % 32]? = none := List.getElem?_eq_none (by omega)
      simp [this, show ¬ py.val < vy.toNat % 32 + n.toNat by omega]
  · simp [hy]

end Sys2Proof.Machine
end

