-- ==== Sys2Proof/Laws/PerInstr.lean ====
section
/-! SUPPORT. Facts about every instruction as syntax, one lemma for each constructor. `Canonical`: the canonical form of
spec/30_encoding.md R69, R74 is canonical, well formed, and of the same mnemonic. -/

namespace Sys2Proof.Laws

/-- The canonical form of an instruction is its own canonical form, stands for a word, and names the same instruction. -/
def Canonical.Statement (i : Instr) : Prop :=
  i.canonical.canonical = i.canonical ∧ i.canonical.wf = true ∧ i.canonical.mnemonic = i.mnemonic

theorem Canonical.cls (u : Nibble) : Canonical.Statement (.cls u) := ⟨rfl, rfl, rfl⟩
theorem Canonical.ret (u : Nibble) : Canonical.Statement (.ret u) := ⟨rfl, rfl, rfl⟩
theorem Canonical.jp (nnn : Addr12) : Canonical.Statement (.jp nnn) := ⟨rfl, rfl, rfl⟩
theorem Canonical.call (nnn : Addr12) : Canonical.Statement (.call nnn) := ⟨rfl, rfl, rfl⟩
theorem Canonical.seImm (x : RegIdx) (nn : Byte) : Canonical.Statement (.seImm x nn) := ⟨rfl, rfl, rfl⟩
theorem Canonical.sneImm (x : RegIdx) (nn : Byte) : Canonical.Statement (.sneImm x nn) := ⟨rfl, rfl, rfl⟩
theorem Canonical.seReg (x y : RegIdx) (u : Nibble) : Canonical.Statement (.seReg x y u) := ⟨rfl, rfl, rfl⟩
theorem Canonical.ldImm (x : RegIdx) (nn : Byte) : Canonical.Statement (.ldImm x nn) := ⟨rfl, rfl, rfl⟩
theorem Canonical.addImm (x : RegIdx) (nn : Byte) : Canonical.Statement (.addImm x nn) := ⟨rfl, rfl, rfl⟩
theorem Canonical.ldReg (x y : RegIdx) : Canonical.Statement (.ldReg x y) := ⟨rfl, rfl, rfl⟩
theorem Canonical.orReg (x y : RegIdx) : Canonical.Statement (.orReg x y) := ⟨rfl, rfl, rfl⟩
theorem Canonical.andReg (x y : RegIdx) : Canonical.Statement (.andReg x y) := ⟨rfl, rfl, rfl⟩
theorem Canonical.xorReg (x y : RegIdx) : Canonical.Statement (.xorReg x y) := ⟨rfl, rfl, rfl⟩
theorem Canonical.addReg (x y : RegIdx) : Canonical.Statement (.addReg x y) := ⟨rfl, rfl, rfl⟩
theorem Canonical.subReg (x y : RegIdx) : Canonical.Statement (.subReg x y) := ⟨rfl, rfl, rfl⟩
theorem Canonical.shr (x y : RegIdx) : Canonical.Statement (.shr x y) := ⟨rfl, rfl, rfl⟩
theorem Canonical.subnReg (x y : RegIdx) : Canonical.Statement (.subnReg x y) := ⟨rfl, rfl, rfl⟩
theorem Canonical.shl (x y : RegIdx) : Canonical.Statement (.shl x y) := ⟨rfl, rfl, rfl⟩
theorem Canonical.sneReg (x y : RegIdx) (u : Nibble) : Canonical.Statement (.sneReg x y u) := ⟨rfl, rfl, rfl⟩
theorem Canonical.ldI (nnn : Addr12) : Canonical.Statement (.ldI nnn) := ⟨rfl, rfl, rfl⟩
theorem Canonical.jpV0 (nnn : Addr12) : Canonical.Statement (.jpV0 nnn) := ⟨rfl, rfl, rfl⟩
theorem Canonical.rnd (x : RegIdx) (nn : Byte) : Canonical.Statement (.rnd x nn) := ⟨rfl, rfl, rfl⟩
theorem Canonical.drw (x y : RegIdx) (n : Nibble) : Canonical.Statement (.drw x y n) := ⟨rfl, rfl, rfl⟩
theorem Canonical.skp (x : RegIdx) : Canonical.Statement (.skp x) := ⟨rfl, rfl, rfl⟩
theorem Canonical.sknp (x : RegIdx) : Canonical.Statement (.sknp x) := ⟨rfl, rfl, rfl⟩
theorem Canonical.ldVxDT (x : RegIdx) : Canonical.Statement (.ldVxDT x) := ⟨rfl, rfl, rfl⟩
theorem Canonical.ldVxK (x : RegIdx) : Canonical.Statement (.ldVxK x) := ⟨rfl, rfl, rfl⟩
theorem Canonical.ldDTVx (x : RegIdx) : Canonical.Statement (.ldDTVx x) := ⟨rfl, rfl, rfl⟩
theorem Canonical.ldSTVx (x : RegIdx) : Canonical.Statement (.ldSTVx x) := ⟨rfl, rfl, rfl⟩
theorem Canonical.addI (x : RegIdx) : Canonical.Statement (.addI x) := ⟨rfl, rfl, rfl⟩
theorem Canonical.ldF (x : RegIdx) : Canonical.Statement (.ldF x) := ⟨rfl, rfl, rfl⟩
theorem Canonical.ldB (x : RegIdx) : Canonical.Statement (.ldB x) := ⟨rfl, rfl, rfl⟩
theorem Canonical.storeRegs (x : RegIdx) : Canonical.Statement (.storeRegs x) := ⟨rfl, rfl, rfl⟩
theorem Canonical.loadRegs (x : RegIdx) : Canonical.Statement (.loadRegs x) := ⟨rfl, rfl, rfl⟩
theorem Canonical.unknown (w : Word) : Canonical.Statement (.unknown w) := ⟨rfl, rfl, rfl⟩

end Sys2Proof.Laws
end

