-- ==== Sys2Proof/Machine/Asm.lean ====
section
/-! DEFINITION. The spec's assembler notation (spec/30_encoding.md R74, R75): from source lines to ROM bytes, and the text of
an instruction. It is notation from general knowledge (D12; log 28) and no part of the machine. -/

namespace Sys2Proof.Machine

/-! ### From lines to bytes -/

/-- One source line. -/
inductive AsmLine where
  /-- An instruction. -/
  | instr (i : Instr)
  /-- The pseudo-instruction `NOP`. -/
  | nop
  /-- The pseudo-instruction `DB b, b, ...`. -/
  | db (bytes : List Byte)
deriving DecidableEq, Repr

/-- The bytes a line assembles to: an instruction's canonical word, 0x0000, or the literal bytes (R74, R75). -/
def AsmLine.bytes (line : AsmLine) : List Byte :=
  match line with
  | .instr i => bytesOfWord (assemble i)
  | .nop => bytesOfWord 0x0000
  | .db bytes => bytes

/-- The ROM of a program: "simply the literal big-endian instruction stream", with no header (R75). -/
def romOf (lines : List AsmLine) : List Byte := lines.flatMap AsmLine.bytes

/-- The value of a label before line `n`: 0x200 plus its byte offset (R75). -/
def labelValue (lines : List AsmLine) (n : Nat) : Nat := Config.progBase + (romOf (lines.take n)).length

/-! ### The text of an instruction (R74) -/

/-- One hexadecimal digit. -/
def hexDigit (n : Nat) : String := String.singleton ("0123456789ABCDEF".toList.getD n '0')

/-- `V0` to `VF`. -/
def regName (r : RegIdx) : String := "V" ++ hexDigit r.toNat

/-- `nn`. -/
def hexByte (b : Byte) : String := "0x" ++ hexDigit (b.toNat / 16) ++ hexDigit (b.toNat % 16)

/-- `nnn`. -/
def hexAddr (a : Addr12) : String :=
  "0x" ++ hexDigit (a.toNat / 256) ++ hexDigit (a.toNat / 16 % 16) ++ hexDigit (a.toNat % 16)

/-- `MNEMONIC Vx, Vy`. -/
def textXY (mnemonic : String) (x y : RegIdx) : String := mnemonic ++ " " ++ regName x ++ ", " ++ regName y

/-- `MNEMONIC Vx, nn`. -/
def textXNN (mnemonic : String) (x : RegIdx) (nn : Byte) : String := mnemonic ++ " " ++ regName x ++ ", " ++ hexByte nn

/-- The line an instruction is written as. -/
def asmText (i : Instr) : String :=
  match i with
  | .cls _ => "CLS"
  | .ret _ => "RET"
  | .jp nnn => "JP " ++ hexAddr nnn
  | .call nnn => "CALL " ++ hexAddr nnn
  | .seImm x nn => textXNN "SE" x nn
  | .sneImm x nn => textXNN "SNE" x nn
  | .seReg x y _ => textXY "SE" x y
  | .ldImm x nn => textXNN "LD" x nn
  | .addImm x nn => textXNN "ADD" x nn
  | .ldReg x y => textXY "LD" x y
  | .orReg x y => textXY "OR" x y
  | .andReg x y => textXY "AND" x y
  | .xorReg x y => textXY "XOR" x y
  | .addReg x y => textXY "ADD" x y
  | .subReg x y => textXY "SUB" x y
  | .shr x _ => "SHR " ++ regName x
  | .subnReg x y => textXY "SUBN" x y
  | .shl x _ => "SHL " ++ regName x
  | .sneReg x y _ => textXY "SNE" x y
  | .ldI nnn => "LD I, " ++ hexAddr nnn
  | .jpV0 nnn => "JP V0, " ++ hexAddr nnn
  | .rnd x nn => textXNN "RND" x nn
  | .drw x y n => textXY "DRW" x y ++ ", 0x" ++ hexDigit n.toNat
  | .skp x => "SKP " ++ regName x
  | .sknp x => "SKNP " ++ regName x
  | .ldVxDT x => "LD " ++ regName x ++ ", DT"
  | .ldVxK x => "LD " ++ regName x ++ ", K"
  | .ldDTVx x => "LD DT, " ++ regName x
  | .ldSTVx x => "LD ST, " ++ regName x
  | .addI x => "ADD I, " ++ regName x
  | .ldF x => "LD F, " ++ regName x
  | .ldB x => "LD B, " ++ regName x
  | .storeRegs x => "LD [I], " ++ regName x
  | .loadRegs x => "LD " ++ regName x ++ ", [I]"
  | .unknown _ => "NOP"

end Sys2Proof.Machine
end

