-- ==== Sys2Proof/Tests/Slice0.lean ====
section
/-! SUPPORT. Tests: words written out from the spec's encodings, one-step vectors of spec/95_test_vectors.md (named beside
each test), and for each obligation with hypotheses a witness that meets them. -/

namespace Sys2Proof.Tests

open Sys2Proof Sys2Proof.Machine

/-! ### Helpers -/

/-- Registers set in a state. -/
def regs (l : List (RegIdx × Byte)) (s : State) : State := l.foldl (fun s p => s.setV p.1 p.2) s

/-- Bytes placed from an address on. -/
def bytesAt (a : Nat) (bytes : List Byte) (s : State) : State := { s with mem := (s.mem.writeBytes a bytes).getD [] }

/-- One pixel turned on or off. -/
def flipped (x : Fin 64) (y : Fin 32) (s : State) : State := { s with fb := s.fb.toggle x y }

/-- The reset state with `I` set. -/
def indexAt (a : Word) : State := { State.reset with i := a }

/-- One step on the word `w`. -/
def run (w : Nat) (s : State) : Result := step (s.withFetchWord 16 w)

/-- What is seen of an outcome that is a next state. -/
def see {α : Type} (f : State → α) (r : Result) : Option α :=
  match r with
  | .next t => some (f t)
  | .fault _ => none
  | .refused _ => none

/-- The pixels at the places given. -/
def pixels (l : List (Fin 64 × Fin 32)) (s : State) : List Bool := l.map fun p => s.fb.get p.1 p.2

/-! ### Well-formedness: `unknown` carries a word of the UNKNOWN class (R70), and nothing else can be ill formed -/

theorem test_wf_refuses_an_instruction_word : (Instr.unknown 0x1234).wf = false ∧ (Instr.unknown 0x00E0).wf = false ∧
    (Instr.unknown 0x8126).wf = false ∧ (Instr.unknown 0xE19E).wf = false ∧ (Instr.unknown 0xF165).wf = false := by decide

theorem test_wf_accepts_unknown_words : (Instr.unknown 0x0123).wf = true ∧ (Instr.unknown 0x8ABF).wf = true ∧
    (Instr.unknown 0xE19F).wf = true ∧ (Instr.unknown 0xF175).wf = true := by decide

/-! ### Decoding: every constructor, the word written from its rule's Encoding line -/

theorem test_decode_family0 : decode 0x00E0 = .cls 0 ∧ decode 0x00EE = .ret 0 ∧ decode 0x01E0 = .cls 1 ∧
    decode 0x0123 = .unknown 0x0123 ∧ decode 0x00E1 = .unknown 0x00E1 := by decide

theorem test_decode_control : decode 0x1ABC = .jp 0xABC ∧ decode 0x2300 = .call 0x300 ∧ decode 0x332A = .seImm 3 0x2A ∧
    decode 0x432A = .sneImm 3 0x2A ∧ decode 0x5120 = .seReg 1 2 0 ∧ decode 0x9125 = .sneReg 1 2 5 ∧
    decode 0xB210 = .jpV0 0x210 := by decide

theorem test_decode_alu : decode 0x6A37 = .ldImm 0xA 0x37 ∧ decode 0x7305 = .addImm 3 5 ∧ decode 0x8120 = .ldReg 1 2 ∧
    decode 0x8121 = .orReg 1 2 ∧ decode 0x8122 = .andReg 1 2 ∧ decode 0x8123 = .xorReg 1 2 ∧
    decode 0x8124 = .addReg 1 2 ∧ decode 0x8125 = .subReg 1 2 ∧ decode 0x8126 = .shr 1 2 ∧ decode 0x8127 = .subnReg 1 2 ∧
    decode 0x813E = .shl 1 3 ∧ decode 0xC30F = .rnd 3 0x0F := by decide

theorem test_decode_index_and_display : decode 0xA2F0 = .ldI 0x2F0 ∧ decode 0xF21E = .addI 2 ∧ decode 0xF529 = .ldF 5 ∧
    decode 0xF033 = .ldB 0 ∧ decode 0xF355 = .storeRegs 3 ∧ decode 0xFF65 = .loadRegs 0xF ∧
    decode 0xD125 = .drw 1 2 5 := by decide

theorem test_decode_keys_and_timers : decode 0xE29E = .skp 2 ∧ decode 0xE2A1 = .sknp 2 ∧ decode 0xF407 = .ldVxDT 4 ∧
    decode 0xF10A = .ldVxK 1 ∧ decode 0xF415 = .ldDTVx 4 ∧ decode 0xF118 = .ldSTVx 1 := by decide

theorem test_decode_unknown : decode 0x8AB8 = .unknown 0x8AB8 ∧ decode 0xE000 = .unknown 0xE000 ∧
    decode 0xF0FF = .unknown 0xF0FF := by decide

/-- The two orders of two bytes (2.1), and a byte string cut short. -/
theorem test_decode_bytes : decodeBytes [0x6A, 0x02, 0x12] = .ok (.ldImm 0xA 2, [0x12]) ∧
    decodeBytes [0x02, 0x6A] = .ok (.unknown 0x026A, []) ∧ decodeBytes [0x6A] = .error .truncated ∧
    decodeBytes [] = .error .truncated := ⟨rfl, rfl, rfl, rfl⟩

theorem test_decode_table_word : decodeTableWord 16 0xD125 = some (.drw 1 2 5) ∧
    decodeTableWord 16 0x10000 = none := by decide

/-- The words an assembler emits (R69, R74): unexamined bits zero. -/
theorem test_assemble : assemble (.cls 5) = 0x00E0 ∧ assemble (.shr 1 2) = 0x8106 ∧ assemble (.sneReg 1 2 5) = 0x9120 ∧
    assemble (.unknown 0x8AB8) = 0x0000 := by decide

/-- Program P1 of section 4, line by line, and its ROM bytes; the loop starts at 0x204. -/
def programP1 : List AsmLine :=
  [.instr (.ldImm 0 0), .instr (.ldImm 1 5), .instr (.addReg 0 1), .instr (.addImm 1 0xFF), .instr (.seImm 1 0),
   .instr (.jp 0x204), .instr (.jp 0x20C)]

theorem test_romOf : romOf programP1 =
    [0x60, 0x00, 0x61, 0x05, 0x80, 0x14, 0x71, 0xFF, 0x31, 0x00, 0x12, 0x04, 0x12, 0x0C] ∧
    labelValue programP1 2 = 0x204 ∧ romOf [.nop, .db [0xFF, 0xFF]] = [0, 0, 0xFF, 0xFF] := by decide

/-- Lines as the spec writes them (3.1 to 3.4). -/
theorem test_asmText : asmText (.ldImm 0xA 2) = "LD VA, 0x02" ∧ asmText (.jpV0 0x210) = "JP V0, 0x210" ∧
    asmText (.storeRegs 1) = "LD [I], V1" ∧ asmText (.shr 1 2) = "SHR V1" := by decide

/-! ### Control flow (3.2) -/

/-- CF1. -/
theorem test_jp : see (·.pc) (run 0x1ABC .reset) = some 0x0ABC := by decide

/-- CF5: no wrap at 4096. -/
theorem test_jpV0_no_wrap : see (·.pc) (run 0xBFFF (regs [(0, 0xFF)] .reset)) = some 0x10FE := by decide

/-- CF6: V0 is used, not V2. -/
theorem test_jpV0_reads_V0 : see (·.pc) (run 0xB2FF (regs [(0, 0xFF), (2, 1)] .reset)) = some 0x03FE := by decide

/-- CF7. -/
theorem test_call : see (fun t => (t.pc, t.sp, t.stack[0], t.status)) (run 0x2300 .reset) = some (0x300, 1, 0x202, .ok) := by
  decide

/-- CF9: a call on a full stack is ignored. -/
theorem test_call_full : see (fun t => (t.pc, t.sp, t.status, t.faulted)) (run 0x2300 { State.reset with sp := 16 }) =
    some (0x202, 16, .stackOverflow, true) := by decide

/-- DE11: the alias 0x0FEE; the slot keeps its value. -/
theorem test_ret : see (fun t => (t.pc, t.sp, t.stack[0]))
    (run 0x0FEE { State.reset with sp := 1, stack := State.reset.stack.set 0 0x400 }) = some (0x400, 0, 0x400) := by decide

/-- CF8. -/
theorem test_ret_empty : see (fun t => (t.pc, t.sp, t.status)) (run 0x00EE .reset) = some (0x202, 0, .stackUnderflow) := by
  decide

/-- CF12, CF13. -/
theorem test_seImm : see (·.pc) (run 0x332A (regs [(3, 0x2A)] .reset)) = some 0x204 ∧
    see (·.pc) (run 0x332A (regs [(3, 0x2B)] .reset)) = some 0x202 := by decide

/-- CF14, CF15. -/
theorem test_sneImm : see (·.pc) (run 0x432A (regs [(3, 0x2A)] .reset)) = some 0x202 ∧
    see (·.pc) (run 0x432A (regs [(3, 0x2B)] .reset)) = some 0x204 := by decide

/-- DE12 and CF17. -/
theorem test_seReg : see (·.pc) (run 0x5121 (regs [(1, 7), (2, 7)] .reset)) = some 0x204 ∧
    see (·.pc) (run 0x5120 (regs [(1, 7), (2, 8)] .reset)) = some 0x202 := by decide

/-- CF19, CF20. -/
theorem test_sneReg : see (·.pc) (run 0x9120 (regs [(1, 7), (2, 8)] .reset)) = some 0x204 ∧
    see (·.pc) (run 0x9330 .reset) = some 0x202 := by decide

/-- DE4: an UNKNOWN word is a no-op with status OK. -/
theorem test_unknown : run 0x8AB8 .reset = .next { State.reset.withFetchWord 16 0x8AB8 with pc := 0x202 } := rfl

/-! ### ALU (3.3) -/

/-- AL2: VF is an ordinary destination. -/
theorem test_ldImm : see (·.getV 0xF) (run 0x6F00 (regs [(0xF, 7)] .reset)) = some 0 := by decide

/-- AL3: wraps, no flag. -/
theorem test_addImm : see (fun t => (t.getV 0, t.getV 0xF)) (run 0x7001 (regs [(0, 0xFF)] .reset)) = some (0, 0) := by decide

/-- AL5. -/
theorem test_ldReg : see (·.getV 0) (run 0x8010 (regs [(1, 0x5A)] .reset)) = some 0x5A := by decide

/-- AL6. -/
theorem test_orReg : see (fun t => (t.getV 0, t.getV 0xF)) (run 0x8011 (regs [(0, 0xF0), (1, 0x0F), (0xF, 1)] .reset)) =
    some (0xFF, 1) := by decide

/-- AL7. -/
theorem test_andReg : see (fun t => (t.getV 0, t.getV 0xF)) (run 0x8012 (regs [(0, 0xF0), (1, 0x3C), (0xF, 1)] .reset)) =
    some (0x30, 1) := by decide

/-- AL8. -/
theorem test_xorReg : see (fun t => (t.getV 0, t.getV 0xF)) (run 0x8013 (regs [(0, 0xF0), (1, 0x3C), (0xF, 1)] .reset)) =
    some (0xCC, 1) := by decide

/-- AL12: the sum 255 is not above 255. -/
theorem test_addReg_no_carry : see (fun t => (t.getV 0, t.getV 0xF))
    (run 0x8014 (regs [(0, 0x7F), (1, 0x80), (0xF, 1)] .reset)) = some (0xFF, 0) := by decide

/-- AL15: the old VF is the operand (D6). -/
theorem test_addReg_from_flag : see (fun t => (t.getV 1, t.getV 0xF)) (run 0x81F4 (regs [(1, 0xF0), (0xF, 0x20)] .reset)) =
    some (0x10, 1) := by decide

/-- AL18: equal operands give no borrow. -/
theorem test_subReg_equal : see (fun t => (t.getV 0, t.getV 0xF)) (run 0x8015 (regs [(0, 7), (1, 7)] .reset)) =
    some (0, 1) := by decide

/-- AL20: the result wins over the flag (D6). -/
theorem test_subReg_into_flag : see (·.getV 0xF) (run 0x8F15 (regs [(0xF, 5), (1, 3)] .reset)) = some 2 := by decide

/-- AL23. -/
theorem test_subnReg_borrow : see (fun t => (t.getV 0, t.getV 1, t.getV 0xF)) (run 0x8017 (regs [(0, 5), (1, 3)] .reset)) =
    some (0xFE, 3, 0) := by decide

/-- AL24. -/
theorem test_subnReg_no_borrow : see (fun t => (t.getV 0, t.getV 0xF)) (run 0x8017 (regs [(0, 3), (1, 5)] .reset)) =
    some (2, 1) := by decide

/-- AL27: V1 is shifted, not V2. -/
theorem test_shr : see (fun t => (t.getV 1, t.getV 2, t.getV 0xF)) (run 0x8126 (regs [(1, 5), (2, 0xF0)] .reset)) =
    some (2, 0xF0, 1) := by decide

/-- AL30: the result wins over the flag (D6). -/
theorem test_shr_flag : see (·.getV 0xF) (run 0x8F06 (regs [(0xF, 2)] .reset)) = some 1 := by decide

/-- AL34: V1 is shifted, not V3. -/
theorem test_shl : see (fun t => (t.getV 1, t.getV 3, t.getV 0xF)) (run 0x813E (regs [(1, 0x80), (3, 0x55)] .reset)) =
    some (0, 0x55, 1) := by decide

/-- AL35: the result wins over the flag (D6). -/
theorem test_shl_flag : see (·.getV 0xF) (run 0x8F0E (regs [(0xF, 0x81)] .reset)) = some 2 := by decide

/-- AL36, with the host's byte 0xB7. -/
theorem test_rnd : see (·.getV 3) (stepWith 0xB7 (State.reset.withFetchWord 16 0xC30F)) = some 0x07 := by decide

/-- The first draw after reset is the free stream's first byte, no chosen number (R113). -/
theorem test_rnd_first_draw_is_free : see (·.getV 3) (run 0xC30F .reset) = some (Config.randByte 0 &&& 0x0F) := rfl

/-! ### Index register and memory (3.4, 3.6) -/

/-- IM1. -/
theorem test_ldI : see (·.i) (run 0xAFFF .reset) = some 0x0FFF := by decide

/-- IM3: no wrap at 4096, no flag. -/
theorem test_addI : see (fun t => (t.i, t.getV 0xF)) (run 0xF01E (regs [(0, 1)] (indexAt 0x0FFF))) = some (0x1000, 0) := by
  decide

/-- IM4: modulo 65536. -/
theorem test_addI_wrap : see (·.i) (run 0xF01E (regs [(0, 2)] (indexAt 0xFFFF))) = some 1 := by decide

/-- IM8: not masked to a nibble. -/
theorem test_ldF : see (·.i) (run 0xF029 (regs [(0, 0xFF)] .reset)) = some 0x054B := by decide

/-- IM14, the last place it fits. -/
theorem test_ldB : see (fun t => (t.mem.readBytes 0xFFD 3, t.i)) (run 0xF033 (regs [(0, 255)] (indexAt 0x0FFD))) =
    some (some [2, 5, 5], 0x0FFD) := by decide

/-- OR1: nothing is written, not even the bytes in range. -/
theorem test_ldB_out_of_range : see (fun t => (t.mem.readBytes 0xFFE 2, t.pc, t.status))
    (run 0xF033 (regs [(0, 123)] (indexAt 0x0FFE))) = some (some [0, 0], 0x202, .addressOutOfRange) := by decide

/-- IM15: X = 0 stores one byte. -/
theorem test_storeRegs : see (fun t => (t.mem.readBytes 0x300 2, t.i)) (run 0xF055 (regs [(0, 0xAB), (1, 0xCD)] (indexAt 0x300)))
    = some (some [0xAB, 0], 0x300) := by decide

/-- OR4: no partial store. -/
theorem test_storeRegs_out_of_range : see (fun t => (t.mem.readBytes 0xFFD 3, t.status))
    (run 0xF355 (regs [(0, 1), (1, 2), (2, 3), (3, 4)] (indexAt 0x0FFD))) = some (some [0, 0, 0], .addressOutOfRange) := by
  decide

/-- IM18. -/
theorem test_loadRegs : see (fun t => (t.getV 0, t.getV 1, t.getV 2, t.i))
    (run 0xF165 (bytesAt 0x300 [0x0A, 0x0B, 0x0C] (indexAt 0x300))) = some (0x0A, 0x0B, 0, 0x300) := by decide

/-- OR9: no partial load. -/
theorem test_loadRegs_out_of_range : see (fun t => (t.getV 0, t.pc, t.status))
    (run 0xF365 (bytesAt 0xFFD [0xAA, 0xBB, 0xCC] (indexAt 0x0FFD))) = some (0, 0x202, .addressOutOfRange) := by decide

/-! ### Display (3.5, 3.6) -/

/-- DR1. -/
theorem test_cls : see (fun t => (t.fb.get 0 0, t.fb.get 63 31, t.getV 0xF))
    (run 0x00E0 (regs [(0xF, 1)] (flipped 63 31 (flipped 0 0 .reset)))) = some (false, false, 1) := by decide

/-- DR3: clipped at both edges, not wrapped. -/
theorem test_drw_clips : see (fun t =>
      (pixels [(59, 30), (60, 30), (63, 30), (0, 30), (60, 31), (61, 31), (63, 31), (60, 0), (0, 31)] t, t.getV 0xF))
    (run 0xD014 (regs [(0, 60), (1, 30)] (bytesAt 0x300 [0xFF, 0x81, 0xFF, 0xFF] (indexAt 0x300)))) =
    some ([false, true, true, false, true, false, false, false, false], 0) := by decide

/-- DR12: the row is read from VF before VF is cleared, and a lit pixel goes off. -/
theorem test_drw_collides : see (fun t => (pixels [(10, 2), (11, 2), (10, 0)] t, t.getV 0xF))
    (run 0xD1F1 (flipped 10 2 (regs [(1, 10), (0xF, 2)] (bytesAt 0x300 [0x80] (indexAt 0x300))))) =
    some ([false, false, false], 1) := by decide

/-! ### Keypad and timers (3.7) -/

/-- KT1, and OR17: a key number above 15 does not skip. -/
theorem test_skp : see (·.pc) (run 0xE09E (regs [(0, 15)] { State.reset with keys := 0x8000 })) = some 0x204 ∧
    see (fun t => (t.pc, t.status)) (run 0xE09E (regs [(0, 16)] { State.reset with keys := 0xFFFF })) =
      some (0x202, .keyIndexOutOfRange) := by decide

/-- KT4, and OR18. -/
theorem test_sknp : see (·.pc) (run 0xE0A1 (regs [(0, 15)] .reset)) = some 0x204 ∧
    see (fun t => (t.pc, t.status)) (run 0xE0A1 (regs [(0, 16)] .reset)) = some (0x202, .keyIndexOutOfRange) := by decide

/-- KT6: the lowest key is captured and not yet delivered. -/
theorem test_ldVxK_press : see (fun t => (t.kw, t.pc, t.getV 0)) (run 0xF00A { State.reset with keys := 0x0208 }) =
    some (.capturedPress 3, 0x200, 0) := by decide

/-- KT7: the captured key is released while another is down. -/
theorem test_ldVxK_release : see (fun t => (t.kw, t.pc, t.getV 0))
    (run 0xF00A { State.reset with keys := 0x0200, kw := .capturedPress 3 }) = some (.idle, 0x202, 3) := by decide

/-- KT13. -/
theorem test_ldVxDT : see (fun t => (t.getV 4, t.dt)) (run 0xF407 { State.reset with dt := 0x3C }) = some (0x3C, 0x3C) := by
  decide

/-- KT14. -/
theorem test_ldDTVx : see (·.dt) (run 0xF415 (regs [(4, 0x3C)] .reset)) = some 0x3C := by decide

/-- KT15, first move. -/
theorem test_ldSTVx : see (fun t => (t.st, tone t)) (run 0xF118 (regs [(1, 2)] .reset)) = some (2, true) := by decide

/-- KT17. -/
theorem test_tick : ((tick { State.reset with dt := 255, st := 1 }).dt, (tick { State.reset with dt := 255, st := 1 }).st) =
    (254, 0) := by decide

/-! ### The step, reset and load (3.1, 3.8) -/

/-- DE14, DE15: the last word of memory runs, and past it nothing is fetched. -/
theorem test_step_at_the_end : see (fun t => (t.getV 0xA, t.pc)) (run 0x6A02 { State.reset with pc := 0x0FFE }) =
    some (2, 0x1000) ∧ see (fun t => (t.pc, t.status)) (step { State.reset with pc := 0x0FFF }) =
      some (0x0FFF, .fetchOutOfRange) := by decide

/-- DE17: an odd PC is fetched from as it stands. -/
theorem test_step_odd : see (fun t => (t.getV 0xA, t.pc)) (run 0x6A02 { State.reset with pc := 0x0201 }) =
    some (2, 0x203) := by decide

/-- RS4. -/
theorem test_loadROM : see (fun t => (t.mem.readWord 0x200, t.pc)) (loadROM [0x6A] .reset) = some (some 0x6A00, 0x200) := by
  decide

/-- IM20, the font of R183: glyph 0. -/
theorem test_font : State.reset.mem.readBytes 0x50 5 = some [0xF0, 0x90, 0x90, 0x90, 0xF0] := by decide

/-! ### Witnesses: for each obligation with hypotheses, an instance that meets them -/

/-- A step on UNKNOWN word 0x0000 after reset. -/
def slid : State := { State.reset with pc := 0x202 }

theorem step_reset : step .reset = .next slid := rfl

theorem witness_DecodeOfEncode : (Instr.unknown 0x8AB8).wf = true ∧ (Instr.drw 0xF 0xF 0xF).wf = true := by decide

theorem witness_OpcodeMap : (⟨"CLS", 0xF0FF, 0x00E0⟩ : OpcodeRow) ∈ opcodeMap ∧ (0x0FE0 : Word) &&& 0xF0FF = 0x00E0 ∧
    ∀ r ∈ opcodeMap, (0x0FE1 : Word) &&& r.mask ≠ r.pat := by decide

theorem witness_UnknownWords : State.reset.fetchWord = some 0x0000 ∧ decode 0x0000 = .unknown 0x0000 := by decide

theorem witness_StepRuns : (State.reset.withFetchWord 16 0x6A02).mem.read 0x200 = some 0x6A ∧
    (State.reset.withFetchWord 16 0x6A02).mem.read 0x201 = some 0x02 := by decide

theorem witness_FetchOutOfRange : 4094 < ({ State.reset with pc := 0x0FFF } : State).pc.toNat ∧
    HostOp.reset ∉ [HostOp.step 7, .tick] ∧
    ∃ t, runOps [.step 7, .tick] { State.reset with pc := 0x0FFF } = .next t := ⟨by decide, by decide, _, rfl⟩

theorem witness_AnError :
    (∃ t, step (State.reset.withFetchWord 16 0x00EE) = .next t ∧ t.status ≠ .ok) ∧
      ∃ t, step { State.reset with pc := 0x0FFF } = .next t ∧ t.status = .fetchOutOfRange :=
  ⟨⟨_, rfl, by decide⟩, _, rfl, rfl⟩

theorem witness_WhoReports : 4094 < ({ State.reset with pc := 0x0FFF } : State).pc.toNat ∧
    (∃ t, step { State.reset with pc := 0x0FFF } = .next t) ∧ step .reset = .next slid ∧
    State.reset.fetchWord = some 0x0000 := ⟨by decide, ⟨_, rfl⟩, step_reset, by decide⟩

/-- The table of R157 on both sides of each boundary. -/
theorem witness_errorOf :
    (errorOf (.call 0x300) { State.reset with sp := 15 } = .ok ∧
      errorOf (.call 0x300) { State.reset with sp := 16 } = .stackOverflow) ∧
    (errorOf (.ret 0) { State.reset with sp := 1 } = .ok ∧ errorOf (.ret 0) .reset = .stackUnderflow) ∧
    (errorOf (.skp 0) (regs [(0, 15)] .reset) = .ok ∧
      errorOf (.sknp 0) (regs [(0, 16)] .reset) = .keyIndexOutOfRange) ∧
    (errorOf (.drw 0 1 2) (indexAt 0xFFE) = .ok ∧ errorOf (.drw 0 1 2) (indexAt 0xFFF) = .addressOutOfRange ∧
      errorOf (.drw 0 1 0) (indexAt 0xFFFF) = .ok) ∧
    (errorOf (.ldB 0) (indexAt 0xFFD) = .ok ∧ errorOf (.ldB 0) (indexAt 0xFFE) = .addressOutOfRange) ∧
    (errorOf (.storeRegs 0xF) (indexAt 0xFF0) = .ok ∧
      errorOf (.loadRegs 0xF) (indexAt 0xFF1) = .addressOutOfRange) := by decide

/-- A state from which a step reports one of them. -/
theorem witness_WhoReportsAnInstruction : (State.reset.withFetchWord 16 0x00EE).fetchWord = some 0x00EE ∧
    ∃ t, step (State.reset.withFetchWord 16 0x00EE) = .next t ∧ t.status = .stackUnderflow := ⟨by decide, _, rfl, rfl⟩

theorem witness_StatusIsNeverRead : State.reset.toAggregate = ({ State.reset with faulted := true } : State).toAggregate ∧
    State.reset ≠ { State.reset with faulted := true } := ⟨rfl, by decide⟩

theorem witness_OnlyRnd : ∀ x nn, Instr.jpV0 0x210 ≠ .rnd x nn := fun _ _ h => nomatch h

theorem witness_FinalPC : State.reset.fetchWord = some 0x0000 ∧ step .reset = .next slid := ⟨by decide, step_reset⟩

theorem witness_Call : ({ State.reset with sp := 15 } : State).sp.val < 16 ∧
    ({ State.reset with sp := 16 } : State).sp.val = 16 := by decide

theorem witness_Ret : 0 < ({ State.reset with sp := 1 } : State).sp.val ∧ State.reset.sp.val = 0 := by decide

theorem witness_CallThenRet : ({ State.reset with sp := 15 } : State).sp.val < 16 ∧
    ∃ s1, exec (.call 0x300) { State.reset with sp := 15 } = .next s1 ∧ s1.sp = s1.sp ∧ s1.stack = s1.stack :=
  ⟨by decide, _, rfl, rfl, rfl⟩

theorem witness_SkipsOnKeys : ((regs [(0, 15)] State.reset).getV 0).toNat ≤ 15 ∧
    15 < ((regs [(0, 16)] State.reset).getV 0).toNat := by decide

theorem witness_Bcd : (indexAt 0xFFD).memOk ∧ (indexAt 0xFFD).i.toNat + 2 ≤ 4095 := ⟨rfl, by decide⟩

theorem witness_BlockStore : (indexAt 0xFF0).memOk ∧ (indexAt 0xFF0).i.toNat + (0xF : RegIdx).toNat ≤ 4095 :=
  ⟨rfl, by decide⟩

theorem witness_BlockLoad : (indexAt 0xFFF).i.toNat + (0x0 : RegIdx).toNat ≤ 4095 := by decide

theorem witness_OutOfRange : 4095 < (indexAt 0xFFE).i.toNat + 2 ∧ 4095 < (indexAt 0xFF1).i.toNat + (0xF : RegIdx).toNat ∧
    1 ≤ (1 : Nibble).toNat ∧ 4095 < (indexAt 0x1000).i.toNat + (1 : Nibble).toNat - 1 := by decide

theorem witness_StoreThenLoad : (indexAt 0xFF0).memOk ∧ (indexAt 0xFF0).i.toNat + (0xF : RegIdx).toNat ≤ 4095 ∧
    ∃ s1, exec (.storeRegs 0xF) (indexAt 0xFF0) = .next s1 ∧ (regs [(3, 9)] s1).i = s1.i ∧
      (regs [(3, 9)] s1).mem = s1.mem := ⟨rfl, by decide, _, rfl, rfl, rfl⟩

theorem witness_StoresAreSeen : (indexAt 0xFF0).memOk ∧ (indexAt 0xFF0).i.toNat + (0xF : RegIdx).toNat ≤ 4095 ∧
    (0xE : RegIdx).toNat < (0xF : RegIdx).toNat ∧
    ∃ s1, exec (.storeRegs 0xF) (indexAt 0xFF0) = .next s1 ∧ ({ s1 with pc := 0xFFE } : State).mem = s1.mem ∧
      ({ s1 with pc := 0xFFE } : State).pc.toNat = (indexAt 0xFF0).i.toNat + (0xE : RegIdx).toNat :=
  ⟨rfl, by decide, by decide, _, rfl, rfl, by decide⟩

theorem witness_CanonicalMemory : Memory.wf [(0, 1), (0xFFF, 2)] = true ∧ Memory.wf (Memory.put 0 1 [(0xFFF, 2)]) = true := by
  decide

theorem witness_Drw : ((0 : Nibble) = 0 ∨ (indexAt 0xFFFF).i.toNat + (0 : Nibble).toNat - 1 ≤ 4095) ∧
    ((1 : Nibble) = 0 ∨ (indexAt 0xFFF).i.toNat + (1 : Nibble).toNat - 1 ≤ 4095) := by decide

/-- A draw of one pixel at the last address: on a screen where that pixel is lit the first clause applies. -/
theorem witness_DrwCollision :
    (∃ t, exec (.drw 0 1 1) (flipped 0 0 (bytesAt 0xFFF [0x80] (indexAt 0xFFF))) = .next t) ∧
      (spriteBitAt (bytesAt 0xFFF [0x80] (indexAt 0xFFF)) 0 0 1 0 0 = true ∧
        (flipped 0 0 (bytesAt 0xFFF [0x80] (indexAt 0xFFF))).fb.get 0 0 = true) := ⟨⟨_, rfl⟩, by decide⟩

/-- The same draw on an empty screen: no pixel is lit, so the second clause applies. -/
theorem witness_DrwNoCollision : (∃ t, exec (.drw 0 1 1) (bytesAt 0xFFF [0x80] (indexAt 0xFFF)) = .next t) ∧
    ¬ ∃ px py, spriteBitAt (bytesAt 0xFFF [0x80] (indexAt 0xFFF)) 0 0 1 px py = true ∧
      (bytesAt 0xFFF [0x80] (indexAt 0xFFF)).fb.get px py = true :=
  ⟨⟨_, rfl⟩, fun ⟨px, py, _, h⟩ => Bool.false_ne_true ((get_clear px py).symm.trans h)⟩

theorem witness_DrawingTwice : ∃ s1, exec (.drw 0 1 1) (bytesAt 0xFFF [0x80] (indexAt 0xFFF)) = .next s1 ∧
    ({ s1 with pc := 0x300 } : State).fb = s1.fb ∧ s1.mem = (bytesAt 0xFFF [0x80] (indexAt 0xFFF)).mem ∧ s1.i = 0xFFF ∧
    s1.getV 0 = 0 ∧ s1.getV 1 = 0 ∧ s1.fb.get 0 0 = true :=
  ⟨_, rfl, rfl, rfl, rfl, by decide, by decide, by decide⟩

/-- FX0A waiting for key F, with the keys given. -/
def waiting (keys : BitVec 16) : State := { State.reset with kw := .capturedPress 0xF, keys := keys }

theorem witness_KeyWait : (State.reset.kw = .idle ∧ State.reset.keys = 0) ∧
    lowestKey ({ State.reset with keys := 0x8000 } : State).keys = some 0xF ∧
    ((waiting 0x8000).kw = .capturedPress 0xF ∧ (waiting 0x8000).keys.getLsbD (0xF : Key).toNat = true) ∧
    (waiting 0x7FFF).kw = .capturedPress 0xF ∧ (waiting 0x7FFF).keys.getLsbD (0xF : Key).toNat = false := by decide

theorem witness_KeyPress : (State.reset.withFetchWord 16 0xF30A).fetchWord = some 0xF30A ∧ decode 0xF30A = .ldVxK 3 ∧
    (State.reset.withFetchWord 16 0xF30A).kw = .idle := by decide

theorem witness_LoadROM : State.reset.toAggregate = Aggregate.reset ∧ (List.replicate 3584 (1 : Byte)).length ≤ 3584 ∧
    3584 < (List.replicate 3585 (1 : Byte)).length :=
  ⟨rfl, Nat.le_of_eq List.length_replicate, Nat.lt_of_lt_of_eq (by decide : 3584 < 3585) List.length_replicate.symm⟩

theorem witness_LoadROMOutOfTurn : slid.toAggregate ≠ Aggregate.reset := by decide

theorem witness_Invariants : State.reset.memOk ∧ State.reset.pcBounded ∧ State.reset.keyWaitOk ∧ State.reset.Inv ∧
    step .reset = .next slid ∧ ∃ t, runOps [.setKeys 5, .step 0] State.reset = .next t := by
  have h : State.reset.pcBounded := ⟨by decide, by decide⟩
  exact ⟨rfl, h, .inl rfl, ⟨rfl, h, .inl rfl⟩, step_reset, _, rfl⟩

/-- The key-wait invariant in a state where a wait is under way. -/
theorem witness_KeyWaitOk : ({ State.reset.withFetchWord 16 0xF30A with kw := .capturedPress 5 } : State).keyWaitOk :=
  .inr ⟨0xF30A, 3, by decide, by decide⟩

theorem witness_OnlyListed : (Instr.loadRegs 3).writesV 4 = false ∧ (Instr.loadRegs 3).readsV 4 = false ∧
    ∃ t, exec (.loadRegs 3) (indexAt 0x300) = .next t := ⟨by decide, by decide, _, rfl⟩

/-- One instruction outside every list of writers, and one write of each kind whose place is elsewhere. -/
theorem witness_SpecialState : (∃ t, exec (.unknown 0x0000) State.reset = .next t) ∧ ¬ (Instr.unknown 0x0000).writesI ∧
    ¬ (Instr.unknown 0x0000).usesStack ∧ ¬ (Instr.unknown 0x0000).writesFB := by
  refine ⟨⟨_, rfl⟩, ?_, ?_, ?_⟩ <;> simp [Instr.writesI, Instr.usesStack, Instr.writesFB]

theorem witness_OnlyStores : (indexAt 0xFFD).memOk ∧ (∃ t, exec (.ldB 3) (indexAt 0xFFD) = .next t) ∧
    ¬ ((indexAt 0xFFD).i.toNat ≤ 0xFFC ∧ 0xFFC ≤ (indexAt 0xFFD).i.toNat + 2) ∧
    (∃ t, exec (.storeRegs 0) (indexAt 0xFFF) = .next t) ∧ ¬ (Instr.loadRegs 3).writesMem := by
  refine ⟨rfl, ⟨_, rfl⟩, by decide, ⟨_, rfl⟩, ?_⟩
  simp [Instr.writesMem]

end Sys2Proof.Tests
end

section
/-! The encoding family (spec/30_encoding.md): the fields of an instruction word. -/

namespace Sys2Proof

/-- Settles O7 (R62), one law of the fields as numbers for each of the six fields. -/
theorem fieldsOfTheWord : Obligations.FieldsOfTheWord := fun w =>
  ⟨toNat_famOf w, toNat_xOf w, toNat_yOf w, toNat_nOf w, toNat_nnOf w, toNat_nnnOf w⟩

end Sys2Proof
end

section
/-! The control flow family (spec/41_control_flow.md): the skips that compare a register with an immediate. -/

namespace Sys2Proof.Machine

/-! ### A conditional skip as a change of PC only (R91) -/

theorem skipIf_beq (a b : Byte) (s : State) :
    s.skipIf (a == b) = { s with pc := if a = b then s.pc + 2 else s.pc } := by
  rw [skipIf_eq, skipIf_pc]
  simp only [beq_iff_eq]

theorem skipIf_bne (a b : Byte) (s : State) :
    s.skipIf (a != b) = { s with pc := if a = b then s.pc else s.pc + 2 } := by
  rw [skipIf_eq, skipIf_pc]
  simp only [bne_iff_ne, ite_not]

/-! ### 3XNN and 4XNN -/

theorem exec_seImm (x : RegIdx) (nn : Byte) (s : State) :
    exec (.seImm x nn) s = .next (s.skipIf (s.getV x == nn)) := rfl

theorem exec_sneImm (x : RegIdx) (nn : Byte) (s : State) :
    exec (.sneImm x nn) s = .next (s.skipIf (s.getV x != nn)) := rfl

/-- Settles O21 (R96, R97): the words are their fields (`wordXNN_eq_or`), and a skip that is taken or not changes PC only. -/
theorem skipsCompareAnImmediate : Obligations.SkipsCompareAnImmediate := fun x nn s =>
  ⟨wordXNN_eq_or 0x3 x nn, wordXNN_eq_or 0x4 x nn,
    (exec_seImm x nn s).trans (congrArg _ (skipIf_beq (s.getV x) nn s)),
    (exec_sneImm x nn s).trans (congrArg _ (skipIf_bne (s.getV x) nn s))⟩

end Sys2Proof.Machine
end

section
/-! The ALU family (spec/42_alu.md): the instructions that write V[X] alone. -/

namespace Sys2Proof.Machine

/-! ### The meaning of each instruction as one register write (R101 to R106, R112) -/

theorem exec_ldImm (x : RegIdx) (nn : Byte) (s : State) : exec (.ldImm x nn) s = .next (s.setV x nn) := rfl

theorem exec_addImm (x : RegIdx) (nn : Byte) (s : State) : exec (.addImm x nn) s = .next (s.setV x (s.getV x + nn)) := rfl

theorem exec_ldReg (x y : RegIdx) (s : State) : exec (.ldReg x y) s = .next (s.setV x (s.getV y)) := rfl

theorem exec_orReg (x y : RegIdx) (s : State) : exec (.orReg x y) s = .next (s.setV x (s.getV x ||| s.getV y)) := rfl

theorem exec_andReg (x y : RegIdx) (s : State) : exec (.andReg x y) s = .next (s.setV x (s.getV x &&& s.getV y)) := rfl

theorem exec_xorReg (x y : RegIdx) (s : State) : exec (.xorReg x y) s = .next (s.setV x (s.getV x ^^^ s.getV y)) := rfl

/-- The random byte is masked, and the model's own random fields move on (log 2). -/
theorem exec_rnd (x : RegIdx) (nn : Byte) (s : State) : exec (.rnd x nn) s =
    .next { s.setV x (s.rand &&& nn) with rand := Config.randByte s.draws, draws := s.draws + 1 } := rfl

/-! ### The obligations -/

/-- Settles O24 (R101, R102, R103): each of the three is one register write (`setV_onlyRegister`), and a sum of bytes is the
sum modulo 256. -/
theorem loadsAndFlaglessAdd : Obligations.LoadsAndFlaglessAdd := by
  intro x y nn s
  refine ⟨wordXNN_eq_or 0x6 x nn, wordXNN_eq_or 0x7 x nn, wordXYN_eq_orXY 0x8 x y 0x0,
    ⟨_, exec_ldImm x nn s, getV_setV_same s x _, setV_onlyRegister s x _⟩,
    ⟨_, exec_addImm x nn s, ?sum, setV_onlyRegister s x _⟩,
    ⟨_, exec_ldReg x y s, getV_setV_same s x _, setV_onlyRegister s x _⟩⟩
  case sum =>
    rw [getV_setV_same]
    exact BitVec.toNat_add (s.getV x) nn

/-- Settles O25 (R104, R105, R106): each of the three is one register write, of a byte whose bits are the operation on the
operands' bits. -/
theorem logicWritesNoFlag : Obligations.LogicWritesNoFlag := by
  intro x y s
  refine ⟨wordXYN_eq_orXY 0x8 x y 0x1, wordXYN_eq_orXY 0x8 x y 0x2, wordXYN_eq_orXY 0x8 x y 0x3,
    ⟨_, exec_orReg x y s, setV_onlyRegister s x _, fun j => ?_⟩,
    ⟨_, exec_andReg x y s, setV_onlyRegister s x _, fun j => ?_⟩,
    ⟨_, exec_xorReg x y s, setV_onlyRegister s x _, fun j => ?_⟩⟩
  · rw [getV_setV_same, BitVec.getLsbD_or]
  · rw [getV_setV_same, BitVec.getLsbD_and]
  · rw [getV_setV_same, BitVec.getLsbD_xor]

/-- Settles O28 (R112): the random fields are not in the register file, so the registers read as after the write of the
masked byte. -/
theorem rndMasksTheRandomByte : Obligations.RndMasksTheRandomByte := fun x nn s =>
  ⟨wordXNN_eq_or 0xC x nn, _, exec_rnd x nn s, getV_setV_same s x (s.rand &&& nn),
    fun _ h => getV_setV_ne s h (s.rand &&& nn), rfl⟩

end Sys2Proof.Machine
end

section
/-! The index and memory family (spec/43_index_memory.md): the instructions that write I alone. -/

namespace Sys2Proof.Machine

/-! ### The meaning of each instruction as one write of I (R120, R121) -/

theorem exec_ldI (nnn : Addr12) (s : State) : exec (.ldI nnn) s = .next { s with i := addrToI nnn } := rfl

theorem exec_addI (x : RegIdx) (s : State) : exec (.addI x) s = .next { s with i := s.i + byteToI (s.getV x) } := rfl

/-- I has 16 bits, so adding a byte to it is the sum modulo 65536. -/
theorem toNat_i_add_byteToI (s : State) (b : Byte) : (s.i + byteToI b).toNat = (s.i.toNat + b.toNat) % 65536 := by
  rw [BitVec.toNat_add, byteToI_toNat]
  rfl

/-- Settles O29 (R120, R121): each of the two is one write of I, of an address or of a 16-bit sum. -/
theorem indexLoadAndAdd : Obligations.IndexLoadAndAdd := fun x nnn s =>
  ⟨wordNNN_eq_or 0xA nnn, wordXNN_eq_orX 0xF x 0x1E,
    ⟨_, exec_ldI nnn s, addrToI_toNat nnn, rfl⟩,
    ⟨_, exec_addI x s, toNat_i_add_byteToI s (s.getV x), rfl⟩⟩

end Sys2Proof.Machine
end

section
/-! The keypad and timers family (spec/45_keypad_timers.md): the moves between V[X] and the two timers. -/

namespace Sys2Proof.Machine

/-! ### The meaning of each instruction as one write: of a register, of DT, of ST (R145, R146, R148) -/

theorem exec_ldVxDT (x : RegIdx) (s : State) : exec (.ldVxDT x) s = .next (s.setV x s.dt) := rfl

theorem exec_ldDTVx (x : RegIdx) (s : State) : exec (.ldDTVx x) s = .next { s with dt := s.getV x } := rfl

theorem exec_ldSTVx (x : RegIdx) (s : State) : exec (.ldSTVx x) s = .next { s with st := s.getV x } := rfl

/-- Settles O46 (R145, R146, R148): the words are their X field in a fixed word (`wordXNN_eq_orX`), FX07 is one register write
(`setV_onlyRegister`), and FX15 and FX18 are one write of a timer. -/
theorem timerRegisterMoves : Obligations.TimerRegisterMoves := fun x s =>
  ⟨wordXNN_eq_orX 0xF x 0x07, wordXNN_eq_orX 0xF x 0x15, wordXNN_eq_orX 0xF x 0x18,
    ⟨_, exec_ldVxDT x s, getV_setV_same s x s.dt, setV_onlyRegister s x s.dt⟩,
    exec_ldDTVx x s, exec_ldSTVx x s⟩

end Sys2Proof.Machine
end

section
/-! The encoding family (spec/30_encoding.md): the round trips, the opcode map and the UNKNOWN class. -/

namespace Sys2Proof

/-! ### Which words each secondary lookup answers UNKNOWN for (R65 to R68) -/

theorem decodeFamily0_eq_unknown_iff (w : Word) :
    decodeFamily0 w = .unknown w ↔ (!(nnOf w == 0xE0 || nnOf w == 0xEE)) = true := by
  unfold decodeFamily0
  split <;> simp_all

theorem decodeFamily8_eq_unknown_iff (w : Word) :
    decodeFamily8 w = .unknown w ↔ family8Gaps.contains (nOf w) = true := by
  unfold decodeFamily8
  have := nibble_cases (nOf w)
  split <;> simp_all [family8Gaps]

theorem decodeFamilyE_eq_unknown_iff (w : Word) :
    decodeFamilyE w = .unknown w ↔ (!(nnOf w == 0x9E || nnOf w == 0xA1)) = true := by
  unfold decodeFamilyE
  split <;> simp_all

theorem decodeFamilyF_eq_unknown_iff (w : Word) :
    decodeFamilyF w = .unknown w ↔ (!familyFCodes.contains (nnOf w)) = true := by
  unfold decodeFamilyF
  split <;> simp_all [familyFCodes]

/-- The table of R70 by the fields of R62. -/
theorem isUnknownWord_eq (w : Word) : isUnknownWord w =
    ((famOf w == 0x0 && !(nnOf w == 0xE0 || nnOf w == 0xEE)) || (famOf w == 0x8 && family8Gaps.contains (nOf w))
      || (famOf w == 0xE && !(nnOf w == 0x9E || nnOf w == 0xA1))
      || (famOf w == 0xF && !familyFCodes.contains (nnOf w))) := rfl

theorem decode_eq_unknown_iff (w : Word) : decode w = .unknown w ↔ isUnknownWord w = true := by
  rw [isUnknownWord_eq]
  rcases nibble_cases (famOf w) with h | h | h | h | h | h | h | h | h | h | h | h | h | h | h | h
  all_goals simp [decode, h, decodeFamily0_eq_unknown_iff, decodeFamily8_eq_unknown_iff, decodeFamilyE_eq_unknown_iff,
    decodeFamilyF_eq_unknown_iff]

/-! ### The word is read back from its decoding (R61, R64) -/

theorem wordNNN_of_fam {w : Word} {f : Nibble} (h : famOf w = f) : wordNNN f (nnnOf w) = w :=
  h ▸ wordNNN_fields w

theorem wordXNN_of_fam {w : Word} {f : Nibble} (h : famOf w = f) : wordXNN f (xOf w) (nnOf w) = w :=
  h ▸ wordXNN_fields w

theorem wordXYN_of_fam {w : Word} {f : Nibble} (h : famOf w = f) : wordXYN f (xOf w) (yOf w) (nOf w) = w :=
  h ▸ wordXYN_fields w

theorem encode_decodeFamily0 {w : Word} (h : famOf w = 0x0) : encode (decodeFamily0 w) = w := by
  have hw := wordXNN_of_fam h
  unfold decodeFamily0
  split <;> simp_all [encode]

theorem encode_decodeFamily8 {w : Word} (h : famOf w = 0x8) : encode (decodeFamily8 w) = w := by
  have hw := wordXYN_of_fam h
  unfold decodeFamily8
  split <;> simp_all [encode]

theorem encode_decodeFamilyE {w : Word} (h : famOf w = 0xE) : encode (decodeFamilyE w) = w := by
  have hw := wordXNN_of_fam h
  unfold decodeFamilyE
  split <;> simp_all [encode]

theorem encode_decodeFamilyF {w : Word} (h : famOf w = 0xF) : encode (decodeFamilyF w) = w := by
  have hw := wordXNN_of_fam h
  unfold decodeFamilyF
  split <;> simp_all [encode]

theorem encode_decode (w : Word) : encode (decode w) = w := by
  rcases nibble_cases (famOf w) with h | h | h | h | h | h | h | h | h | h | h | h | h | h | h | h
  all_goals simp [decode, h, encode_decodeFamily0, encode_decodeFamily8, encode_decodeFamilyE, encode_decodeFamilyF]
  all_goals simp [encode, h, wordNNN_of_fam, wordXNN_of_fam, wordXYN_of_fam]

/-- An UNKNOWN decoding carries the word itself. -/
theorem eq_of_decode_eq_unknown {w v : Word} (h : decode w = .unknown v) : v = w := by
  have := encode_decode w
  rwa [h] at this

theorem decode_wf (w : Word) : (decode w).wf = true := by
  cases h : decode w
  case unknown v =>
    obtain rfl := eq_of_decode_eq_unknown h
    exact (decode_eq_unknown_iff v).1 h
  all_goals rfl

theorem decode_encode {i : Instr} (h : i.wf = true) : decode (encode i) = i := by
  cases i
  case unknown w => exact (decode_eq_unknown_iff w).2 h
  all_goals simp [encode, decode, decodeFamily0, decodeFamily8, decodeFamilyE, decodeFamilyF]

/-- The word of two bytes and the two bytes of a word are inverse (R43). -/
theorem decodeBytes_bytesOfWord (w : Word) (rest : List Byte) :
    decodeBytes (bytesOfWord w ++ rest) = .ok (decode w, rest) := by
  have hw : wordOfBytes (w.extractLsb' 8 8) (w.extractLsb' 0 8) = w := by
    apply BitVec.eq_of_toNat_eq
    rw [wordOfBytes, toNat_append_eq, BitVec.extractLsb'_toNat, BitVec.extractLsb'_toNat]
    simp only [Nat.shiftRight_eq_div_pow]
    have := w.isLt
    omega
  change Except.ok (decode (wordOfBytes (w.extractLsb' 8 8) (w.extractLsb' 0 8)), rest) = _
  rw [hw]

/-! ### The opcode map (R73) -/

theorem mnemonic_decodeFamily0_congr {w p : Word} (h : nnOf w = nnOf p) :
    (decodeFamily0 w).mnemonic = (decodeFamily0 p).mnemonic := by
  unfold decodeFamily0
  rw [h]
  split <;> rfl

theorem mnemonic_decodeFamily8_congr {w p : Word} (h : nOf w = nOf p) :
    (decodeFamily8 w).mnemonic = (decodeFamily8 p).mnemonic := by
  unfold decodeFamily8
  rw [h]
  split <;> rfl

theorem mnemonic_decodeFamilyE_congr {w p : Word} (h : nnOf w = nnOf p) :
    (decodeFamilyE w).mnemonic = (decodeFamilyE p).mnemonic := by
  unfold decodeFamilyE
  rw [h]
  split <;> rfl

theorem mnemonic_decodeFamilyF_congr {w p : Word} (h : nnOf w = nnOf p) :
    (decodeFamilyF w).mnemonic = (decodeFamilyF p).mnemonic := by
  unfold decodeFamilyF
  rw [h]
  split <;> rfl

/-- The bits the decoder examines fix the mnemonic (R64, R69). -/
theorem mnemonic_decode_congr {w p : Word} (h : famOf w = famOf p) (h8 : famOf p = 0x8 → nOf w = nOf p)
    (hnn : famOf p ∈ [0x0, 0xE, 0xF] → nnOf w = nnOf p) : (decode w).mnemonic = (decode p).mnemonic := by
  rcases nibble_cases (famOf p) with hp | hp | hp | hp | hp | hp | hp | hp | hp | hp | hp | hp | hp | hp | hp | hp
  all_goals simp [decode, h, hp]
  any_goals rfl
  · exact mnemonic_decodeFamily0_congr (hnn (by simp [hp]))
  · exact mnemonic_decodeFamily8_congr (h8 hp)
  · exact mnemonic_decodeFamilyE_congr (hnn (by simp [hp]))
  · exact mnemonic_decodeFamilyF_congr (hnn (by simp [hp]))

/-- Every row of R73 is one of three kinds: all of the word's family (mask 0xF000), a low nibble of family 0x8 (mask 0xF00F)
or a low byte (mask 0xF0FF); its match lies under its mask, and is a word of the row's mnemonic. -/
theorem opcodeMap_rows : ∀ r ∈ opcodeMap,
    ((r.mask = 0xF000 ∧ famOf r.pat ∉ [0x0, 0x8, 0xE, 0xF]) ∨ (r.mask = 0xF00F ∧ famOf r.pat = 0x8) ∨
        (r.mask = 0xF0FF ∧ famOf r.pat ∈ [0x0, 0xE, 0xF])) ∧
      r.pat &&& r.mask = r.pat ∧ (decode r.pat).mnemonic = r.mnemonic := by
  decide

/-- Two rows whose matches agree under both masks are one row. -/
theorem opcodeMap_disjoint : ∀ r ∈ opcodeMap, ∀ r' ∈ opcodeMap,
    r.pat &&& r'.mask = r'.pat &&& r.mask → r = r' := by
  decide

theorem mnemonic_decode_of_row {w : Word} {r : OpcodeRow} (hr : r ∈ opcodeMap) (h : w &&& r.mask = r.pat) :
    (decode w).mnemonic = r.mnemonic := by
  obtain ⟨hk, hp, hm⟩ := opcodeMap_rows r hr
  rw [← hm]
  rcases hk with ⟨hmask, hf⟩ | ⟨hmask, hf⟩ | ⟨hmask, hf⟩ <;> rw [hmask] at h hp
  · exact mnemonic_decode_congr ((and_F000_eq_iff hp).1 h) (by simp_all) (by simp_all)
  · obtain ⟨hfam, hn⟩ := (and_F00F_eq_iff hp).1 h
    exact mnemonic_decode_congr hfam (fun _ => hn) (by simp [hf])
  · obtain ⟨hfam, hnn⟩ := (and_F0FF_eq_iff hp).1 h
    exact mnemonic_decode_congr hfam (fun _ => ((nnOf_eq_iff w r.pat).1 hnn).2) (fun _ => hnn)

/-- At most one row matches a word. -/
theorem row_unique {w : Word} {r r' : OpcodeRow} (hr : r ∈ opcodeMap) (hr' : r' ∈ opcodeMap) (h : w &&& r.mask = r.pat)
    (h' : w &&& r'.mask = r'.pat) : r = r' := by
  refine opcodeMap_disjoint r hr r' hr' ?_
  rw [← h, ← h', BitVec.and_assoc, BitVec.and_assoc, BitVec.and_comm r.mask]

/-- A word of a family that is one row matches that row. -/
theorem exists_row_F000 {w : Word} {f : Nibble} (hw : famOf w = f)
    (hr : ∃ r ∈ opcodeMap, r.mask = 0xF000 ∧ r.pat = wordXNN f 0 0) : ∃ r ∈ opcodeMap, w &&& r.mask = r.pat := by
  obtain ⟨r, hr, hm, hp⟩ := hr
  refine ⟨r, hr, ?_⟩
  obtain ⟨-, hpat, -⟩ := opcodeMap_rows r hr
  rw [hm] at hpat ⊢
  exact (and_F000_eq_iff hpat).2 (by rw [hp, famOf_wordXNN, hw])

/-- A word whose low nibble selects its row matches it, whatever its other nibbles are. -/
theorem exists_row_F00F {f n : Nibble} (x y : RegIdx)
    (hr : ∃ r ∈ opcodeMap, r.mask = 0xF00F ∧ r.pat = wordXYN f 0 0 n) :
    ∃ r ∈ opcodeMap, wordXYN f x y n &&& r.mask = r.pat := by
  obtain ⟨r, hr, hm, hp⟩ := hr
  refine ⟨r, hr, ?_⟩
  obtain ⟨-, hpat, -⟩ := opcodeMap_rows r hr
  rw [hm] at hpat ⊢
  exact (and_F00F_eq_iff hpat).2 (by rw [hp]; simp)

/-- A word whose low byte selects its row matches it, whatever its other nibble is. -/
theorem exists_row_F0FF {f : Nibble} {nn : Byte} (x : RegIdx)
    (hr : ∃ r ∈ opcodeMap, r.mask = 0xF0FF ∧ r.pat = wordXNN f 0 nn) :
    ∃ r ∈ opcodeMap, wordXNN f x nn &&& r.mask = r.pat := by
  obtain ⟨r, hr, hm, hp⟩ := hr
  refine ⟨r, hr, ?_⟩
  obtain ⟨-, hpat, -⟩ := opcodeMap_rows r hr
  rw [hm] at hpat ⊢
  exact (and_F0FF_eq_iff hpat).2 (by rw [hp]; simp)

/-- Every instruction has its row. -/
theorem exists_row_encode {i : Instr} (h : ∀ w, i ≠ .unknown w) : ∃ r ∈ opcodeMap, encode i &&& r.mask = r.pat := by
  cases i
  case unknown w => exact absurd rfl (h w)
  case jp | call | ldI | jpV0 => exact exists_row_F000 (famOf_wordNNN ..) (by decide)
  case seImm | sneImm | ldImm | addImm | rnd => exact exists_row_F000 (famOf_wordXNN ..) (by decide)
  case seReg | sneReg | drw => exact exists_row_F000 (famOf_wordXYN ..) (by decide)
  case ldReg | orReg | andReg | xorReg | addReg | subReg | shr | subnReg | shl => exact exists_row_F00F _ _ (by decide)
  case cls | ret | skp | sknp => exact exists_row_F0FF _ (by decide)
  case ldVxDT | ldVxK | ldDTVx | ldSTVx | addI | ldF | ldB | storeRegs | loadRegs => exact exists_row_F0FF _ (by decide)

/-! ### The obligations -/

/-- Settles O1: the fields of an encoded word are the operands (`decode_encode`), and its two bytes make the word again. -/
theorem decodeOfEncodeIsTheInstruction : Obligations.DecodeOfEncodeIsTheInstruction := by
  intro i rest h
  refine ⟨decode_encode h, ?_⟩
  rw [encodeBytes, decodeBytes_bytesOfWord, decode_encode h]

/-- Settles O2: in every family the word is the format of its own fields (`encode_decode`). -/
theorem encodeOfDecodeIsTheWord : Obligations.EncodeOfDecodeIsTheWord := fun w => ⟨decode_wf w, encode_decode w⟩

/-- Settles O3: a match fixes the bits the decoder examines; two rows that one word matches agree under both masks; and the
word of an instruction matches that instruction's row. -/
theorem decoderFollowsTheOpcodeMap : Obligations.DecoderFollowsTheOpcodeMap := by
  intro w
  refine ⟨fun r hr h => mnemonic_decode_of_row hr h, fun r hr r' hr' h h' => row_unique hr hr' h h', fun hnone => ?_⟩
  refine Decidable.byContradiction fun hw => ?_
  have hi : ∀ v, decode w ≠ .unknown v := fun v hv => hw (by rw [hv, eq_of_decode_eq_unknown hv])
  obtain ⟨r, hr, h⟩ := exists_row_encode hi
  rw [encode_decode] at h
  exact hnone r hr h

/-- Settles O4: the table of R70 in the fields of the word, and the fields as numbers. -/
theorem unknownWordsAreTheTable : Obligations.UnknownWordsAreTheTable := by
  intro w
  have hfam : ∀ f : Nibble, famOf w = f ↔ w.toNat / 4096 = f.toNat := fun f => by rw [← BitVec.toNat_inj, toNat_famOf]
  have hnn : ∀ b : Byte, nnOf w = b ↔ w.toNat % 256 = b.toNat := fun b => by rw [← BitVec.toNat_inj, toNat_nnOf]
  have hn : ∀ n : Nibble, nOf w = n ↔ w.toNat % 16 = n.toNat := fun n => by rw [← BitVec.toNat_inj, toNat_nOf]
  rw [decode_eq_unknown_iff, isUnknownWord_eq]
  simp [family8Gaps, familyFCodes, hfam, hnn, hn, or_assoc]

/-- Settles O6: eleven closed words. -/
theorem sampleWordsDecode : Obligations.SampleWordsDecode := by
  unfold Obligations.SampleWordsDecode
  decide

end Sys2Proof
end

section
/-! What an instruction does, said once: it reports the error the table of R157 gives it and does nothing else, or it has
one of eighteen effects. The statements over all instructions are proved of the effects. -/

namespace Sys2Proof.Machine

/-- What one instruction does to the state, its register operands already read. -/
inductive Effect where
  /-- Nothing beyond the PC advance. -/
  | nop
  /-- A byte into V[x]. -/
  | reg (x : RegIdx) (b : Byte)
  /-- A flag into VF and then a byte into V[x] (R100). -/
  | flagged (x : RegIdx) (flag b : Byte)
  /-- The random byte, masked, into V[x]; the next one is drawn (R112). -/
  | random (x : RegIdx) (nn : Byte)
  /-- An address into PC. -/
  | jump (target : Word)
  /-- An extra 2 on PC, if the condition holds. -/
  | skipIf (c : Bool)
  /-- PC pushed, and an address into PC. -/
  | call (target : Word)
  /-- PC popped. -/
  | ret
  /-- A value into I. -/
  | index (a : Word)
  /-- A value into DT. -/
  | delay (t : Byte)
  /-- A value into ST. -/
  | sound (t : Byte)
  /-- Every pixel off. -/
  | clear
  /-- The `n` rows at I drawn at an origin. -/
  | draw (vx vy : Byte) (n : Nibble)
  /-- Bytes stored from I on. -/
  | store (bytes : List Byte)
  /-- `n` bytes from I on into V[0], V[1], ... -/
  | load (n : Nat)
  /-- PC back by 2. -/
  | wait
  /-- A key captured, and PC back by 2. -/
  | capture (k : Key)
  /-- A key code into V[x], and no key awaited. -/
  | deliver (x : RegIdx) (k : Key)

/-- The state after an effect. -/
def Effect.apply (e : Effect) (s : State) : State :=
  match e with
  | .nop => s
  | .reg x b => s.setV x b
  | .flagged x flag b => s.setFlagged x flag b
  | .random x nn => { s.setV x (s.rand &&& nn) with rand := Config.randByte s.draws, draws := s.draws + 1 }
  | .jump target => { s with pc := target }
  | .skipIf c => s.skipIf c
  | .call target => { s with pc := target, sp := s.sp + 1, stack := s.stack.setIfInBounds s.sp.val s.pc }
  | .ret => { s with pc := s.stack.toList.getD (s.sp.val - 1) 0, sp := s.sp - 1 }
  | .index a => { s with i := a }
  | .delay t => { s with dt := t }
  | .sound t => { s with st := t }
  | .clear => { s with fb := Framebuffer.clear }
  | .draw vx vy n => drawSprite vx vy ((s.mem.readBytes s.i.toNat n.toNat).getD []) s
  | .store bytes => { s with mem := (s.mem.writeBytes s.i.toNat bytes).getD s.mem }
  | .load n => { s with v := writeRegsFrom 0 ((s.mem.readBytes s.i.toNat n).getD []) s.v }
  | .wait => s.stay
  | .capture k => { s.stay with kw := .capturedPress k }
  | .deliver x k => { s.setV x (zextKey k) with kw := .idle }

/-- The move of the key-wait state machine (R144). -/
def keyWaitEffect (x : RegIdx) (s : State) : Effect :=
  match s.kw with
  | .idle =>
    match lowestKey s.keys with
    | some k => .capture k
    | none => .wait
  | .capturedPress k => if keyDown s.keys k then .wait else .deliver x k

/-- The effect of an instruction that reports no error, from the state in which it executes. -/
def effectOf (i : Instr) (s : State) : Effect :=
  match i with
  | .cls _ => .clear
  | .ret _ => .ret
  | .jp nnn => .jump (addrToPC nnn)
  | .call nnn => .call (addrToPC nnn)
  | .seImm x nn => .skipIf (s.getV x == nn)
  | .sneImm x nn => .skipIf (s.getV x != nn)
  | .seReg x y _ => .skipIf (s.getV x == s.getV y)
  | .ldImm x nn => .reg x nn
  | .addImm x nn => .reg x (s.getV x + nn)
  | .ldReg x y => .reg x (s.getV y)
  | .orReg x y => .reg x (s.getV x ||| s.getV y)
  | .andReg x y => .reg x (s.getV x &&& s.getV y)
  | .xorReg x y => .reg x (s.getV x ^^^ s.getV y)
  | .addReg x y => .flagged x (carryFlag (s.getV x) (s.getV y)) (s.getV x + s.getV y)
  | .subReg x y => .flagged x (noBorrowFlag (s.getV x) (s.getV y)) (s.getV x - s.getV y)
  | .shr x _ => .flagged x (lowBitFlag (s.getV x)) (s.getV x >>> 1)
  | .subnReg x y => .flagged x (noBorrowFlag (s.getV y) (s.getV x)) (s.getV y - s.getV x)
  | .shl x _ => .flagged x (highBitFlag (s.getV x)) (s.getV x <<< 1)
  | .sneReg x y _ => .skipIf (s.getV x != s.getV y)
  | .ldI nnn => .index (addrToI nnn)
  | .jpV0 nnn => .jump (addrToPC nnn + byteToPC (s.getV 0))
  | .rnd x nn => .random x nn
  | .drw x y n => .draw (s.getV x) (s.getV y) n
  | .skp x => .skipIf (s.keys.getLsbD (s.getV x).toNat == true)
  | .sknp x => .skipIf (s.keys.getLsbD (s.getV x).toNat == false)
  | .ldVxDT x => .reg x s.dt
  | .ldVxK x => keyWaitEffect x s
  | .ldDTVx x => .delay (s.getV x)
  | .ldSTVx x => .sound (s.getV x)
  | .addI x => .index (s.i + byteToI (s.getV x))
  | .ldF x => .index (glyphAddress (s.getV x))
  | .ldB x => .store (bcdDigits (s.getV x))
  | .storeRegs x => .store (s.regRange x)
  | .loadRegs x => .load (x.toNat + 1)
  | .unknown _ => .nop

/-! ### The meanings are their effects -/

/-- Bytes that are what memory reads are what a read of several bytes answers. -/
theorem readBytes_of_getElem? {m : Memory} {a n : Nat} {bs : List Byte} (hl : bs.length = n)
    (hr : ∀ j, j < n → bs[j]? = m.read (a + j)) : m.readBytes a n = some bs := by
  induction bs generalizing a n with
  | nil => subst hl; rfl
  | cons b bs ih =>
    subst hl
    have h0 : m.read a = some b := (hr 0 (by simp)).symm
    have hrest : m.readBytes (a + 1) bs.length = some bs := ih rfl fun j hj => by
      rw [show a + 1 + j = a + (j + 1) by omega, ← hr (j + 1) (by simpa using hj), List.getElem?_cons_succ]
    simp only [List.length_cons, Memory.readBytes, h0, hrest]

theorem storeBytes_eq {a : Nat} {bs : List Byte} (h : a + bs.length ≤ Config.memSize) (s : State) :
    storeBytes a bs s = .next { s with mem := (s.mem.writeBytes a bs).getD s.mem } := by
  obtain ⟨m, hm⟩ := writeBytes_isSome s.mem h
  simp only [storeBytes, hm, Option.getD_some]

/-- What every instruction does: it has its effect, or it reports the error the table of R157 gives it. -/
def EffectOrError (i : Instr) (s : State) : Prop :=
  (errorOf i s = .ok ∧ exec i s = .next ((effectOf i s).apply s)) ∨
    (errorOf i s ≠ .ok ∧ exec i s = raise (errorOf i s) s)

theorem EffectOrError.of_raise {i : Instr} {s : State} {e : Status} (h : errorOf i s = e) (he : e ≠ .ok)
    (hx : exec i s = raise e s) : EffectOrError i s := .inr ⟨h ▸ he, h ▸ hx⟩

theorem ret_effectOrError (u : Nibble) (s : State) : EffectOrError (.ret u) s := by
  rcases execRet_cases s with ⟨n, hn, hsp, he⟩ | ⟨h0, he⟩
  · have hne : s.sp ≠ 0 := fun h => absurd (congrArg Fin.val h) (by rw [hsp]; exact Nat.succ_ne_zero n)
    have hsp' : (⟨n, Nat.lt_succ_of_lt hn⟩ : Fin (Config.stackDepth + 1)) = s.sp - 1 := by
      apply Fin.ext
      rw [Fin.sub_val_of_le (Fin.le_def.2 (show 1 ≤ s.sp.val by omega))]
      show n = s.sp.val - 1
      omega
    have hget : s.stack.toList.getD n 0 = s.stack[n] := by simp [List.getD, hn]
    refine .inl ⟨if_neg hne, he.trans ?_⟩
    simp only [effectOf, Effect.apply, hsp, Nat.add_sub_cancel, hget, hsp']
  · exact .of_raise (if_pos h0) (by decide) he

theorem call_effectOrError (nnn : Addr12) (s : State) : EffectOrError (.call nnn) s := by
  rcases execCall_cases nnn s with ⟨hlt, he⟩ | ⟨hfull, he⟩
  · have hne : s.sp ≠ 16 := fun h => absurd (congrArg Fin.val h ▸ hlt) (by decide)
    have hsp : (⟨s.sp.val + 1, Nat.succ_lt_succ hlt⟩ : Fin (Config.stackDepth + 1)) = s.sp + 1 :=
      Fin.ext (by rw [Fin.val_add]; exact (Nat.mod_eq_of_lt (Nat.succ_lt_succ hlt)).symm)
    have hst : s.stack.set s.sp.val s.pc hlt = s.stack.setIfInBounds s.sp.val s.pc := by
      apply Vector.ext; simp [Vector.getElem_set, Vector.getElem_setIfInBounds]
    refine .inl ⟨if_neg hne, he.trans ?_⟩
    simp only [effectOf, Effect.apply, hst, hsp]
  · exact .of_raise (if_pos hfull) (by decide) he

theorem keySkip_effectOrError {i : Instr} {x : RegIdx} {s : State} {wanted : Bool}
    (hx : exec i s = skipOnKey x wanted s) (he : errorOf i s = if (s.getV x).toNat > 15 then .keyIndexOutOfRange else .ok)
    (hf : effectOf i s = .skipIf (s.keys.getLsbD (s.getV x).toNat == wanted)) : EffectOrError i s := by
  rcases skipOnKey_cases x wanted s with ⟨h, hs⟩ | ⟨h, hs⟩
  · exact .of_raise (he.trans (if_pos h)) (by decide) (hx.trans hs)
  · exact .inl ⟨he.trans (if_neg (by omega)), by rw [hx, hs, hf]; rfl⟩

theorem drw_effectOrError (x y : RegIdx) (n : Nibble) (s : State) : EffectOrError (.drw x y n) s := by
  rcases execDrw_cases x y n s with ⟨h, rows, he, hl, hr⟩ | ⟨h1, hi, he⟩
  · refine .inl ⟨if_neg ?_, he.trans ?_⟩
    · rcases h with rfl | h
      · exact fun h => absurd h.1 (by decide)
      · omega
    · simp only [effectOf, Effect.apply, readBytes_of_getElem? hl hr, Option.getD_some]
  · exact .of_raise (if_pos ⟨h1, hi⟩) (by decide) he

theorem loadRegs_effectOrError (x : RegIdx) (s : State) : EffectOrError (.loadRegs x) s := by
  rcases execLoadRegs_cases x s with ⟨h, bytes, he, hl, hr⟩ | ⟨hi, he⟩
  · refine .inl ⟨if_neg (by omega), he.trans ?_⟩
    simp only [effectOf, Effect.apply, readBytes_of_getElem? hl hr, Option.getD_some]
  · exact .of_raise (if_pos hi) (by decide) he

theorem checkedStore_effectOrError {i : Instr} {s : State} {hi : Nat} {bs : List Byte}
    (hx : exec i s = checkRange s.i.toNat hi s (storeBytes s.i.toNat bs)) (hl : hi + 1 = s.i.toNat + bs.length)
    (he : errorOf i s = if hi > 4095 then .addressOutOfRange else .ok) (hf : effectOf i s = .store bs) :
    EffectOrError i s := by
  rcases checkRange_cases s.i.toNat hi s (storeBytes s.i.toNat bs) with ⟨h, hk⟩ | ⟨h, hk⟩
  · refine .inl ⟨he.trans (if_neg (by omega)), ?_⟩
    rw [hx, hk, hf, storeBytes_eq (by rw [Config.memSize]; omega)]
    rfl
  · exact .of_raise (he.trans (if_pos h)) (by decide) (hx.trans hk)

theorem ldVxK_effectOrError (x : RegIdx) (s : State) : EffectOrError (.ldVxK x) s := by
  refine .inl ⟨rfl, ?_⟩
  rcases execLdVxK_cases x s with ⟨hk, hl, he⟩ | ⟨k, hk, hl, he⟩ | ⟨k, hk, hd, he⟩ | ⟨k, hk, hd, he⟩ <;>
    refine Eq.trans he ?_
  · simp only [effectOf, keyWaitEffect, hk, hl, Effect.apply]
  · simp only [effectOf, keyWaitEffect, hk, hl, Effect.apply]
  · simp only [effectOf, keyWaitEffect, hk, hd, Effect.apply, if_true]
  · simp [effectOf, keyWaitEffect, hk, hd, Effect.apply]

/-- Everything an instruction can do. -/
theorem exec_cases (i : Instr) (s : State) : EffectOrError i s := by
  cases i
  case ret u => exact ret_effectOrError u s
  case call nnn => exact call_effectOrError nnn s
  case drw x y n => exact drw_effectOrError x y n s
  case skp x => exact keySkip_effectOrError (x := x) (wanted := true) rfl rfl rfl
  case sknp x => exact keySkip_effectOrError (x := x) (wanted := false) rfl rfl rfl
  case ldVxK x => exact ldVxK_effectOrError x s
  case ldB x => exact checkedStore_effectOrError (bs := bcdDigits (s.getV x)) rfl rfl rfl rfl
  case storeRegs x => exact checkedStore_effectOrError (bs := s.regRange x) rfl (by rw [regRange_length]; rfl) rfl rfl
  case loadRegs x => exact loadRegs_effectOrError x s
  all_goals exact .inl ⟨rfl, rfl⟩

/-- An instruction to which the table of R157 gives an error reports it and has no effect. -/
theorem exec_of_errorOf {i : Instr} {s : State} {e : Status} (h : errorOf i s = e) (he : e ≠ .ok) :
    exec i s = .next { s with status := e, faulted := true } := by
  subst h
  rcases exec_cases i s with ⟨hok, -⟩ | ⟨-, hx⟩
  · exact absurd hok he
  · exact hx

end Sys2Proof.Machine
end

section
/-! The statements over all instructions (spec/10_state.md sections 1 to 7, spec/20_memory.md R47): what an effect
leaves alone, which instructions it belongs to, and what no instruction reads. -/

namespace Sys2Proof.Machine

/-! ### The instructions an effect belongs to -/

/-- The instructions that may have an effect on the special registers, the stack, the framebuffer, memory or the random byte
(R13, R18 to R24, R47, R113). -/
def Effect.BelongsTo (e : Effect) (i : Instr) : Prop :=
  match e with
  | .index _ => i.writesI
  | .random x nn => i = .rnd x nn
  | .delay _ => ∃ x, i = .ldDTVx x
  | .sound _ => ∃ x, i = .ldSTVx x
  | .call _ => ∃ nnn, i = .call nnn
  | .ret => ∃ u, i = .ret u
  | .clear | .draw _ _ _ => i.writesFB
  | .store _ => i.writesMem
  | .wait | .capture _ | .deliver _ _ => ∃ x, i = .ldVxK x
  | .nop | .reg _ _ | .flagged _ _ _ | .jump _ | .skipIf _ | .load _ => True

theorem keyWaitEffect_cases (x : RegIdx) (s : State) :
    keyWaitEffect x s = .wait ∨ (∃ k, keyWaitEffect x s = .capture k) ∨ ∃ k, keyWaitEffect x s = .deliver x k := by
  unfold keyWaitEffect
  split <;> split <;> simp

theorem effectOf_belongsTo (i : Instr) (s : State) : (effectOf i s).BelongsTo i := by
  cases i
  case ldVxK x =>
    rcases keyWaitEffect_cases x s with h | ⟨k, h⟩ | ⟨k, h⟩ <;> simp [effectOf, h, Effect.BelongsTo]
  all_goals simp [effectOf, Effect.BelongsTo, Instr.writesI, Instr.writesFB, Instr.writesMem]

/-! ### The special registers, the stack, the screen and memory under an effect (R13, R18 to R24, R47) -/

theorem apply_i {e : Effect} (h : ∀ a, e ≠ .index a) (s : State) : (e.apply s).i = s.i := by
  cases e with
  | index a => exact absurd rfl (h a)
  | skipIf c => exact skipIf_i c s
  | _ => rfl

theorem apply_dt {e : Effect} (h : ∀ t, e ≠ .delay t) (s : State) : (e.apply s).dt = s.dt := by
  cases e with
  | delay t => exact absurd rfl (h t)
  | skipIf c => exact skipIf_dt c s
  | _ => rfl

theorem apply_st {e : Effect} (h : ∀ t, e ≠ .sound t) (s : State) : (e.apply s).st = s.st := by
  cases e with
  | sound t => exact absurd rfl (h t)
  | skipIf c => exact skipIf_st c s
  | _ => rfl

theorem apply_sp {e : Effect} (hc : ∀ a, e ≠ .call a) (hr : e ≠ .ret) (s : State) : (e.apply s).sp = s.sp := by
  cases e with
  | call a => exact absurd rfl (hc a)
  | ret => exact absurd rfl hr
  | skipIf c => exact skipIf_sp c s
  | _ => rfl

theorem apply_stack {e : Effect} (h : ∀ a, e ≠ .call a) (s : State) : (e.apply s).stack = s.stack := by
  cases e with
  | call a => exact absurd rfl (h a)
  | skipIf c => exact skipIf_stack c s
  | _ => rfl

theorem apply_fb {e : Effect} (hc : e ≠ .clear) (hd : ∀ vx vy n, e ≠ .draw vx vy n) (s : State) :
    (e.apply s).fb = s.fb := by
  cases e with
  | clear => exact absurd rfl hc
  | draw vx vy n => exact absurd rfl (hd vx vy n)
  | skipIf c => exact skipIf_fb c s
  | _ => rfl

theorem apply_kw {e : Effect} (hc : ∀ k, e ≠ .capture k) (hd : ∀ x k, e ≠ .deliver x k) (s : State) :
    (e.apply s).kw = s.kw := by
  cases e with
  | capture k => exact absurd rfl (hc k)
  | deliver x k => exact absurd rfl (hd x k)
  | skipIf c => exact skipIf_kw c s
  | _ => rfl

theorem apply_keys (e : Effect) (s : State) : (e.apply s).keys = s.keys := by
  cases e with
  | skipIf c => exact skipIf_keys c s
  | _ => rfl

theorem apply_mem {e : Effect} (h : ∀ bytes, e ≠ .store bytes) (s : State) : (e.apply s).mem = s.mem := by
  cases e with
  | store bytes => exact absurd rfl (h bytes)
  | skipIf c => exact skipIf_mem c s
  | _ => rfl

/-- Settles O58: an error writes none of these, and each effect on one of them belongs to the instructions of its list. -/
theorem onlyListedInstructionsWriteSpecialState : Obligations.OnlyListedInstructionsWriteSpecialState := by
  intro i s t h
  rcases exec_cases i s with ⟨-, he⟩ | ⟨-, he⟩ <;> obtain rfl := Host.Outcome.next.inj (h.symm.trans he)
  · have hb {e : Effect} (he : effectOf i s = e) : e.BelongsTo i := he ▸ effectOf_belongsTo i s
    refine ⟨fun hn => apply_i (fun _ he => hn (hb he)) s, fun hn => apply_dt (fun _ he => ?dt) s,
      fun hn => apply_st (fun _ he => ?st) s,
      fun hn => apply_sp (fun _ he => hn (.inl (hb he))) (fun he => hn (.inr (hb he))) s,
      fun hn => apply_stack (fun _ he => ?stack) s,
      fun hn => apply_fb (fun he => hn (hb he)) (fun _ _ _ he => hn (hb he)) s,
      fun hn => apply_kw (fun _ he => ?capture) (fun _ _ he => ?deliver) s, apply_keys _ s⟩
    all_goals
      obtain ⟨x, hx⟩ := hb he
      exact hn x hx
  · exact ⟨fun _ => rfl, fun _ => rfl, fun _ => rfl, fun _ => rfl, fun _ => rfl, fun _ => rfl, fun _ => rfl, rfl⟩

/-- Settles O59: the one effect on memory belongs to FX33 and FX55, and `execLdB_cases` and `execStoreRegs_cases` say where
their bytes go. -/
theorem onlyStoresWriteMemory : Obligations.OnlyStoresWriteMemory := by
  intro i s t hs h
  refine ⟨fun hi => ?_, ?_, ?_⟩
  · rcases exec_cases i s with ⟨-, he⟩ | ⟨-, he⟩ <;> obtain rfl := Host.Outcome.next.inj (h.symm.trans he)
    · refine apply_mem (fun bytes hb => hi ?_) s
      have := effectOf_belongsTo i s
      rwa [hb] at this
    · rfl
  · rintro x a rfl ha
    rcases execLdB_cases x s with ⟨-, m, he, hm⟩ | ⟨-, he⟩ <;>
      obtain rfl := Host.Outcome.next.inj (h.symm.trans he)
    · exact ((hm hs).2 a).trans (if_neg (by omega))
    · rfl
  · rintro x a rfl ha
    rcases execStoreRegs_cases x s with ⟨-, m, he, hm⟩ | ⟨-, he⟩ <;>
      obtain rfl := Host.Outcome.next.inj (h.symm.trans he)
    · exact ((hm hs).2 a).trans (if_neg ha)
    · rfl

/-! ### The general registers under an effect (R12) -/

/-- The registers an effect writes. -/
def Effect.writesV (e : Effect) (r : RegIdx) : Bool :=
  match e with
  | .reg x _ | .random x _ | .deliver x _ => r == x
  | .flagged x _ _ => r == x || r == regF
  | .draw _ _ _ => r == regF
  | .load n => decide (r.toNat < n)
  | .nop | .jump _ | .skipIf _ | .call _ | .ret | .index _ | .delay _ | .sound _ | .clear | .store _ | .wait
  | .capture _ => false

theorem writesV_of_effectOf {i : Instr} {s : State} {r : RegIdx} (h : (effectOf i s).writesV r = true) :
    i.writesV r = true := by
  cases i
  case ldVxK x =>
    rcases keyWaitEffect_cases x s with hk | ⟨k, hk⟩ | ⟨k, hk⟩ <;>
      simp_all [effectOf, Effect.writesV, Instr.writesV]
  case loadRegs x => exact decide_eq_true (Nat.le_of_lt_succ (of_decide_eq_true h))
  all_goals simp_all [effectOf, Effect.writesV, Instr.writesV]

theorem readBytes_length {m : Memory} {a n : Nat} {bs : List Byte} (h : m.readBytes a n = some bs) : bs.length = n := by
  induction n generalizing a bs with
  | zero => simp_all [Memory.readBytes]
  | succ n ih =>
    simp only [Memory.readBytes] at h
    split at h
    · rename_i hb; obtain rfl := Option.some.inj h; simp [ih hb]
    · exact absurd h (by simp)

theorem readBytes_getD_length_le (m : Memory) (a n : Nat) : ((m.readBytes a n).getD []).length ≤ n := by
  cases h : m.readBytes a n with
  | none => simp
  | some bs => simp [readBytes_length h]

theorem writeRegsFrom_zero_getElem_of_le {bytes : List Byte} {v : Vector Byte Config.nReg} {k : Nat} (hk : k < 16)
    (h : bytes.length ≤ k) : (writeRegsFrom 0 bytes v)[k] = v[k] := by
  rw [writeRegsFrom_getElem bytes 0 v k hk]
  simp [List.getElem?_eq_none h]

/-- An effect leaves every register alone that it does not write. -/
theorem apply_getV {e : Effect} {r : RegIdx} (h : e.writesV r = false) (s : State) : (e.apply s).getV r = s.getV r := by
  cases e with
  | reg x b => exact getV_setV_ne s (by simpa [Effect.writesV] using h) b
  | random x nn => exact getV_setV_ne s (by simpa [Effect.writesV] using h) (s.rand &&& nn)
  | deliver x k => exact getV_setV_ne s (by simpa [Effect.writesV] using h) (zextKey k)
  | flagged x f b => simp_all [Effect.writesV, Effect.apply, getV_setFlagged]
  | draw vx vy n => exact getV_setV_ne s (by simpa [Effect.writesV] using h) _
  | load n =>
    have hn : n ≤ r.toNat := by simpa [Effect.writesV] using h
    exact writeRegsFrom_zero_getElem_of_le r.isLt (Nat.le_trans (readBytes_getD_length_le ..) hn)
  | skipIf c => exact getV_skipIf c s r
  | _ => rfl

/-! ### What no instruction reads -/

/-- The states agree on what an instruction's operands and its error check are read from (R12, second column). -/
def AgreeOnInputs (i : Instr) (s s' : State) : Prop :=
  s'.i = s.i ∧ s'.sp = s.sp ∧ s'.keys = s.keys ∧ s'.kw = s.kw ∧ s'.dt = s.dt ∧
    ∀ r, i.readsV r = true → s'.getV r = s.getV r

theorem errorOf_congr {i : Instr} {s s' : State} (h : AgreeOnInputs i s s') : errorOf i s' = errorOf i s := by
  obtain ⟨hi, hsp, -, -, -, hv⟩ := h
  cases i <;> simp_all [errorOf, Instr.readsV]

theorem regRange_congr {s s' : State} {x : RegIdx} (h : ∀ r : RegIdx, r.toNat ≤ x.toNat → s'.getV r = s.getV r) :
    s'.regRange x = s.regRange x := by
  apply List.ext_getElem?
  intro j
  by_cases hj : j ≤ x.toNat
  · have hj' : (BitVec.ofNat 4 j).toNat = j := by
      rw [BitVec.toNat_ofNat]; exact Nat.mod_eq_of_lt (Nat.lt_of_le_of_lt hj x.isLt)
    have := h (BitVec.ofNat 4 j) (by omega)
    rw [← hj', regRange_getElem? s' x _ (by omega), regRange_getElem? s x _ (by omega), this]
  · rw [List.getElem?_eq_none (by rw [regRange_length]; omega), List.getElem?_eq_none (by rw [regRange_length]; omega)]

theorem effectOf_congr {i : Instr} {s s' : State} (h : AgreeOnInputs i s s') : effectOf i s' = effectOf i s := by
  obtain ⟨hi, hsp, hkeys, hkw, hdt, hv⟩ := h
  cases i
  case storeRegs x => exact congrArg Effect.store (regRange_congr fun r hr => hv r (decide_eq_true hr))
  case ldVxK x => simp only [effectOf, keyWaitEffect, hkw, hkeys]
  all_goals simp_all [effectOf, Instr.readsV]

/-- Two states that agree on an instruction's inputs take the same way through it: both have the same effect or both report
the same error, so what relates the two outcomes in each case relates the states it answers. -/
theorem exec_related {R : State → State → Prop} {i : Instr} {s s' : State} (h : AgreeOnInputs i s s')
    (hok : R ((effectOf i s).apply s) ((effectOf i s).apply s'))
    (herr : ∀ e, R { s with status := e, faulted := true } { s' with status := e, faulted := true }) :
    ∃ t t', exec i s = .next t ∧ exec i s' = .next t' ∧ R t t' := by
  rcases exec_cases i s with ⟨h1, he⟩ | ⟨h1, he⟩ <;> rcases exec_cases i s' with ⟨h2, he'⟩ | ⟨h2, he'⟩ <;>
    rw [errorOf_congr h] at h2
  · rw [effectOf_congr h] at he'
    exact ⟨_, _, he, he', hok⟩
  · exact absurd h1 h2
  · exact absurd h2 h1
  · rw [errorOf_congr h] at he'
    exact ⟨_, _, he, he', herr _⟩

/-- Settles O15: the random fields are no input, and CXNN has the one effect that uses them. -/
theorem onlyRndReadsTheRandomByte : Obligations.OnlyRndReadsTheRandomByte := by
  intro i s r d hi
  have hne : ∀ x nn, effectOf i s ≠ .random x nn := fun x nn he => hi x nn (by
    have := effectOf_belongsTo i s
    rwa [he] at this)
  have happly : (effectOf i s).apply { s with rand := r, draws := d } =
      { (effectOf i s).apply s with rand := r, draws := d } := by
    generalize effectOf i s = e at hne
    cases e with
    | random x nn => exact absurd rfl (hne x nn)
    | skipIf c => cases c <;> rfl
    | _ => rfl
  obtain ⟨t, t', h, h', hR⟩ := exec_related (R := fun t t' => t' = { t with rand := r, draws := d }) (i := i) (s := s)
    (s' := { s with rand := r, draws := d }) ⟨rfl, rfl, rfl, rfl, rfl, fun _ _ => rfl⟩ happly (fun _ => rfl)
  exact ⟨t, h, hR ▸ h'⟩

theorem setV_comm (s : State) {x r : RegIdx} (h : r ≠ x) (b c : Byte) :
    (s.setV r b).setV x c = (s.setV x c).setV r b := by
  have hv : (s.v.set r.toNat b r.isLt).set x.toNat c x.isLt = (s.v.set x.toNat c x.isLt).set r.toNat b r.isLt :=
    Vector.set_comm _ _ fun he => h (BitVec.eq_of_toNat_eq he)
  exact congrArg (fun v => ({ s with v := v } : State)) hv

theorem writeRegsFrom_set {bytes : List Byte} {k : Nat} (hk : k < 16) (h : bytes.length ≤ k) (v : Vector Byte Config.nReg)
    (b : Byte) : writeRegsFrom 0 bytes (v.set k b) = (writeRegsFrom 0 bytes v).set k b := by
  apply Vector.ext
  intro j hj
  rw [writeRegsFrom_getElem bytes 0 _ j hj, Vector.getElem_set, Vector.getElem_set, writeRegsFrom_getElem bytes 0 v j hj]
  by_cases hkj : k = j
  · subst hkj
    simp [List.getElem?_eq_none h]
  · simp [hkj]

/-- A register an effect does not write may as well be changed after it. -/
theorem apply_setV {e : Effect} {r : RegIdx} (h : e.writesV r = false) (s : State) (b : Byte) :
    e.apply (s.setV r b) = (e.apply s).setV r b := by
  cases e with
  | reg x c => exact setV_comm s (by simpa [Effect.writesV] using h) b c
  | random x nn =>
    exact congrArg (fun t : State => { t with rand := Config.randByte s.draws, draws := s.draws + 1 })
      (setV_comm s (x := x) (by simpa [Effect.writesV] using h) b (s.rand &&& nn))
  | deliver x k =>
    exact congrArg (fun t : State => { t with kw := .idle })
      (setV_comm s (x := x) (by simpa [Effect.writesV] using h) b (zextKey k))
  | flagged x f c =>
    obtain ⟨hx, hF⟩ : r ≠ x ∧ r ≠ regF := by simpa [Effect.writesV] using h
    simp only [Effect.apply, State.setFlagged, setV_comm s hF, setV_comm _ hx]
  | draw vx vy n =>
    have hF : r ≠ regF := by simpa [Effect.writesV] using h
    simp only [Effect.apply, drawSprite, setV_comm s hF, setV_fb, setV_mem, setV_i]
    rfl
  | load n =>
    have hn : n ≤ r.toNat := by simpa [Effect.writesV] using h
    exact congrArg (fun v => ({ s with v := v } : State))
      (writeRegsFrom_set r.isLt (Nat.le_trans (readBytes_getD_length_le ..) hn) s.v b)
  | skipIf c => cases c <;> rfl
  | _ => rfl

/-- Settles O57: an effect writes no register but those listed, and one that is no input commutes with it. -/
theorem onlyListedRegistersAreTouched : Obligations.OnlyListedRegistersAreTouched := by
  intro i s r b hw
  have hw' : (effectOf i s).writesV r = false :=
    Bool.eq_false_iff.2 fun h => Bool.eq_false_iff.1 hw (writesV_of_effectOf h)
  refine ⟨fun t h => ?_, fun hr => ?_⟩
  · rcases exec_cases i s with ⟨-, he⟩ | ⟨-, he⟩ <;> obtain rfl := Host.Outcome.next.inj (h.symm.trans he)
    · exact apply_getV hw' s
    · rfl
  · have hother (q : RegIdx) (hq : i.readsV q = true) : (s.setV r b).getV q = s.getV q :=
      getV_setV_ne s (by rintro rfl; exact Bool.eq_false_iff.1 hr hq) b
    obtain ⟨t, t', h, h', hR⟩ := exec_related (R := fun t t' => t' = t.setV r b) (i := i) (s := s) (s' := s.setV r b)
      ⟨rfl, rfl, rfl, rfl, rfl, hother⟩ (apply_setV hw' s b) (fun _ => rfl)
    exact ⟨t, h, hR ▸ h'⟩

/-- Settles O8 (R69): no arm of `exec` passes an unexamined operand on. -/
theorem aliasesRunAsTheCanonicalWord : Obligations.AliasesRunAsTheCanonicalWord := fun i s => by cases i <;> rfl

end Sys2Proof.Machine
end

section
/-! The statements over all steps (spec/40_cycle_and_nop.md, spec/60_exceptions.md, spec/10_state.md R15): who reports
which error, where PC ends, and that the returned status is never read. -/

namespace Sys2Proof.Machine

/-! ### A step as an effect or an error -/

theorem errorOf_advance (i : Instr) (s : State) : errorOf i s.advance = errorOf i s := by cases i <;> rfl

/-- Everything a step can do. -/
theorem step_outcome (s : State) :
    (4094 < s.pc.toNat ∧ step s = .next { s with status := .fetchOutOfRange, faulted := true }) ∨
      ∃ w, s.fetchWord = some w ∧
        ((errorOf (decode w) s = .ok ∧ step s = .next ((effectOf (decode w) s.advance).apply s.advance)) ∨
          (errorOf (decode w) s ≠ .ok ∧
            step s = .next { s.advance with status := errorOf (decode w) s, faulted := true })) := by
  rcases step_cases s with ⟨w, hw, hs⟩ | ⟨hf, hs⟩
  · refine .inr ⟨w, hw, ?_⟩
    have h := exec_cases (decode w) s.advance
    rwa [EffectOrError, errorOf_advance, ← hs] at h
  · refine .inl ⟨?_, hs⟩
    have : ¬ s.pc.toNat ≤ 4094 := fun h => by simp [(fetchable_iff s).2 h] at hf
    omega

theorem step_next (s : State) : ∃ t, step s = .next t := by
  rcases step_outcome s with ⟨-, h⟩ | ⟨w, -, ⟨-, h⟩ | ⟨-, h⟩⟩ <;> exact ⟨_, h⟩

/-- Settles O5 (R86): `exec` on an UNKNOWN term is the identity, and the step adds the advance. -/
theorem unknownWordsAreNoOps : Obligations.UnknownWordsAreNoOps := by
  refine ⟨fun w s => rfl, fun w s hw hd => ?_⟩
  rw [step_of_fetchWord hw, hd]
  rfl

/-- Settles O9 (R80, R82, R43): the two bytes are the fetched word. -/
theorem stepRunsTheDecodedInstruction : Obligations.StepRunsTheDecodedInstruction := fun _ hi lo h1 h2 =>
  ⟨toNat_append_eq hi lo, step_of_fetchWord (readWord_eq h1 h2)⟩

/-! ### Who reports which error (R157, R158) -/

theorem apply_status (e : Effect) (s : State) : (e.apply s).status = s.status := by
  cases e with
  | skipIf c => exact skipIf_status c s
  | _ => rfl

theorem apply_faulted (e : Effect) (s : State) : (e.apply s).faulted = s.faulted := by
  cases e with
  | skipIf c => exact skipIf_faulted c s
  | _ => rfl

theorem errorOf_ne_fetchOutOfRange (i : Instr) (s : State) : errorOf i s ≠ .fetchOutOfRange := by
  cases i <;> simp only [errorOf] <;> (try split) <;> decide

/-- Settles O12: an effect keeps the status OK of the advance, so a step that reports an error had no effect. -/
theorem anErrorChangesNothingButPC : Obligations.AnErrorChangesNothingButPC := by
  intro s t h hne
  rcases step_outcome s with ⟨-, hs⟩ | ⟨w, -, ⟨-, hs⟩ | ⟨-, hs⟩⟩ <;>
    obtain rfl := Host.Outcome.next.inj (h.symm.trans hs)
  · exact ⟨rfl, rfl, rfl⟩
  · exact absurd (apply_status _ _) hne
  · exact ⟨by rw [if_neg (errorOf_ne_fetchOutOfRange (decode w) s)]; rfl, rfl, rfl⟩

/-- Settles O13: `step_outcome` says which error, and an effect touches neither the status nor the sticky bit. -/
theorem whoReportsWhichError : Obligations.WhoReportsWhichError := by
  intro s t h
  rcases step_outcome s with ⟨hpc, hs⟩ | ⟨w, hw, he⟩
  · obtain rfl := Host.Outcome.next.inj (h.symm.trans hs)
    refine ⟨fun _ => rfl, fun w hw => ?_, by simp⟩
    have := (fetchable_iff s).1 (fetchable_of_fetchWord hw)
    omega
  · have hpc := (fetchable_iff s).1 (fetchable_of_fetchWord hw)
    refine ⟨fun _ => by omega, fun w' hw' => ?_, ?_⟩
    · obtain rfl := Option.some.inj (hw.symm.trans hw')
      rcases he with ⟨hok, hs⟩ | ⟨-, hs⟩ <;> obtain rfl := Host.Outcome.next.inj (h.symm.trans hs)
      · rw [hok]; exact apply_status _ _
      · rfl
    · rcases he with ⟨-, hs⟩ | ⟨hne, hs⟩ <;> obtain rfl := Host.Outcome.next.inj (h.symm.trans hs)
      · simp [apply_status, apply_faulted]
      · simp [hne]

/-- The states agree on all but the sticky bit. -/
def SameButFaulted (t t' : State) : Prop :=
  t.toAggregate = t'.toAggregate ∧ t.status = t'.status ∧ t.rand = t'.rand ∧ t.draws = t'.draws

/-- Settles O14: neither field is an input of an instruction or of an effect. -/
theorem statusIsNeverRead : Obligations.StatusIsNeverRead := by
  intro s s' hagg hrand hdraws
  have hs' : s' = { s with status := s'.status, faulted := s'.faulted } := by
    rw [hagg, hrand, hdraws]
  rcases step_cases s with ⟨w, hw, he⟩ | ⟨hf, he⟩
  · have hw' : s'.fetchWord = some w := by rw [hs']; exact hw
    rw [he, step_of_fetchWord hw']
    refine exec_related (R := SameButFaulted) ?_ ?_ ?_
    · rw [hs']; exact ⟨rfl, rfl, rfl, rfl, rfl, fun _ _ => rfl⟩
    · rw [hs']
      cases effectOf (decode w) s.advance with
      | skipIf c => cases c <;> exact ⟨rfl, rfl, rfl, rfl⟩
      | _ => exact ⟨rfl, rfl, rfl, rfl⟩
    · rw [hs']
      exact fun _ => ⟨rfl, rfl, rfl, rfl⟩
  · have hf' : s'.fetchable = false := by rw [hs']; exact hf
    exact ⟨_, _, he, step_of_not_fetchable hf', hagg, rfl, hrand, hdraws⟩

/-! ### PC after a step (R15) -/

theorem finalPC_of_error {i : Instr} {s : State} (h : errorOf i s ≠ .ok) (a : Word) : finalPC i a s = a + 2 := by
  cases i
  case ret u => exact if_pos (by simpa [errorOf] using h)
  case call nnn => exact if_pos (by simpa [errorOf] using h)
  case skp x => exact if_neg fun h' => h (if_neg (by omega))
  case sknp x => exact if_neg fun h' => h (if_neg (by omega))
  case drw | ldB | storeRegs | loadRegs => rfl
  all_goals exact absurd rfl h

theorem add_two_add_two (a : Word) : a + 2 + 2 = a + 4 := BitVec.add_assoc a 2#16 2#16

theorem skipIf_advance_pc (c : Bool) (s : State) : (s.advance.skipIf c).pc = if c then s.pc + 4 else s.pc + 2 := by
  rw [skipIf_pc, advance_pc, add_two_add_two]

theorem keyWaitEffect_pc (x : RegIdx) (s : State) :
    ((keyWaitEffect x s.advance).apply s.advance).pc = finalPC (.ldVxK x) s.pc s := by
  simp only [keyWaitEffect, finalPC, advance_kw, advance_keys, keyDown]
  cases s.kw with
  | idle =>
    cases lowestKey s.keys with
    | none => exact advance_stay_pc s
    | some k => exact advance_stay_pc s
  | capturedPress k =>
    show ((if s.keys.getLsbD k.toNat = true then Effect.wait else Effect.deliver x k).apply s.advance).pc =
      if s.keys.getLsbD k.toNat = false then s.pc + 2 else s.pc
    cases s.keys.getLsbD k.toNat with
    | true => exact advance_stay_pc s
    | false => rfl

theorem key_le_of_errorOf_eq_ok {x : RegIdx} {s : State} (h : errorOf (.skp x) s = .ok) : (s.getV x).toNat ≤ 15 := by
  refine Nat.le_of_not_lt fun hgt => ?_
  rw [show errorOf (.skp x) s = .keyIndexOutOfRange from if_pos hgt] at h
  cases h

theorem apply_effectOf_pc {i : Instr} {s : State} (h : errorOf i s = .ok) :
    ((effectOf i s.advance).apply s.advance).pc = finalPC i s.pc s := by
  cases i
  case seImm | sneImm | seReg | sneReg =>
    refine (skipIf_advance_pc _ s).trans ?_
    simp [finalPC]
  case skp x | sknp x =>
    refine (skipIf_advance_pc _ s).trans ?_
    have hx : (s.getV x).toNat ≤ 15 := key_le_of_errorOf_eq_ok h
    simp [finalPC, hx]
  case ret u =>
    have hsp : s.sp ≠ 0 := fun h0 => by simp [errorOf, h0] at h
    exact (if_neg hsp).symm
  case call nnn =>
    have hsp : s.sp ≠ 16 := fun h16 => by simp [errorOf, h16] at h
    exact (if_neg hsp).symm
  case ldVxK x => exact keyWaitEffect_pc x s
  all_goals rfl

/-- Settles O16: PC after an effect is the table's, and the table gives the advanced PC to an error. -/
theorem finalPCOfEveryInstruction : Obligations.FinalPCOfEveryInstruction := by
  intro s t w hw h
  rcases step_outcome s with ⟨hpc, hs⟩ | ⟨w', hw', he⟩
  · have := (fetchable_iff s).1 (fetchable_of_fetchWord hw)
    omega
  · obtain rfl := Option.some.inj (hw.symm.trans hw')
    rcases he with ⟨hok, hs⟩ | ⟨hne, hs⟩ <;> obtain rfl := Host.Outcome.next.inj (h.symm.trans hs)
    · exact apply_effectOf_pc hok
    · exact (finalPC_of_error hne s.pc).symm

end Sys2Proof.Machine
end

section
/-! The invariants (spec/10_state.md R30) and the runs of host operations (spec/70_reset_and_hazards.md R194). -/

namespace Sys2Proof.Machine

/-! ### Memory stays canonical -/

theorem apply_memOk {s : State} (h : s.memOk) (e : Effect) : (e.apply s).memOk := by
  cases e with
  | store bytes =>
    show ((s.mem.writeBytes s.i.toNat bytes).getD s.mem).wf = true
    cases hm : s.mem.writeBytes s.i.toNat bytes with
    | none => exact h
    | some m => exact writeBytes_wf h hm
  | skipIf c => exact (congrArg Memory.wf (skipIf_mem c s)).trans h
  | _ => exact h

theorem exec_memOk {i : Instr} {s t : State} (hs : s.memOk) (h : exec i s = .next t) : t.memOk := by
  rcases exec_cases i s with ⟨-, he⟩ | ⟨-, he⟩ <;> obtain rfl := Host.Outcome.next.inj (h.symm.trans he)
  · exact apply_memOk hs _
  · exact hs

/-- Settles O53: the one effect on memory writes single bytes inside it. -/
theorem everyStepKeepsMemoryCanonical : Obligations.EveryStepKeepsMemoryCanonical := by
  intro s t hs h
  rcases step_cases s with ⟨w, -, he⟩ | ⟨-, he⟩ <;> rw [he] at h
  · exact exec_memOk (s := s.advance) hs h
  · exact Host.Outcome.next.inj h ▸ hs

/-! ### PC stays bounded (R17) -/

theorem stack_getD_le {s : State} (hst : ∀ j : Fin Config.stackDepth, s.stack[j].toNat ≤ 0x1000) (n : Nat) :
    (s.stack.toList.getD n 0).toNat ≤ 0x1000 := by
  by_cases hn : n < Config.stackDepth
  · have : s.stack.toList.getD n 0 = s.stack[n] := by simp [hn]
    rw [this]
    exact hst ⟨n, hn⟩
  · simp [hn]

/-- The table of R15 stays within 0x10FE, the reach of BNNN (R17). -/
theorem finalPC_le {i : Instr} {a : Word} {s : State} (ha : a.toNat ≤ 4094)
    (hst : ∀ j : Fin Config.stackDepth, s.stack[j].toNat ≤ 0x1000) : (finalPC i a s).toNat ≤ 0x10FE := by
  have h2 : (a + 2).toNat ≤ 0x10FE := by bv_omega
  have h4 : (a + 4).toNat ≤ 0x10FE := by bv_omega
  have ha' : a.toNat ≤ 0x10FE := by omega
  have haddr (nnn : Addr12) : (BitVec.setWidth 16 nnn).toNat ≤ 0x10FE := by bv_omega
  have hsum (nnn : Addr12) (b : Byte) : (BitVec.setWidth 16 nnn + BitVec.setWidth 16 b).toNat ≤ 0x10FE := by bv_omega
  have hpop := Nat.le_trans (stack_getD_le hst (s.sp.val - 1)) (show 0x1000 ≤ 0x10FE by decide)
  cases i
  case jp nnn => exact haddr nnn
  case jpV0 nnn => exact hsum nnn (s.getV 0)
  case call nnn =>
    simp only [finalPC]
    split
    · exact h2
    · exact haddr nnn
  case ret u =>
    simp only [finalPC]
    split
    · exact h2
    · exact hpop
  case seImm | sneImm | seReg | sneReg | skp | sknp => simp only [finalPC]; split <;> assumption
  case ldVxK x =>
    simp only [finalPC]
    repeat' split
    all_goals assumption
  all_goals exact h2

theorem apply_stack_le {s : State} (hpc : s.pc.toNat ≤ 0x1000)
    (hst : ∀ j : Fin Config.stackDepth, s.stack[j].toNat ≤ 0x1000) (e : Effect) (j : Fin Config.stackDepth) :
    (e.apply s).stack[j].toNat ≤ 0x1000 := by
  cases e with
  | call target =>
    simp only [Effect.apply, Fin.getElem_fin, Vector.getElem_setIfInBounds]
    split
    · exact hpc
    · exact hst j
  | skipIf c => rw [Effect.apply, skipIf_stack]; exact hst j
  | _ => exact hst j

/-- Settles O54: the table of R15 is bounded (`finalPC_le`), and a call pushes an advanced PC. -/
theorem everyStepKeepsPCBounded : Obligations.EveryStepKeepsPCBounded := by
  intro s t hs h
  obtain ⟨hpc, hst⟩ := hs
  rcases step_outcome s with ⟨-, hn⟩ | ⟨w, hw, he⟩
  · obtain rfl := Host.Outcome.next.inj (h.symm.trans hn)
    exact ⟨hpc, hst⟩
  · have ha := (fetchable_iff s).1 (fetchable_of_fetchWord hw)
    refine ⟨finalPCOfEveryInstruction s t w hw h ▸ finalPC_le ha hst, ?_⟩
    rcases he with ⟨-, hn⟩ | ⟨-, hn⟩ <;> obtain rfl := Host.Outcome.next.inj (h.symm.trans hn)
    · exact apply_stack_le (s := s.advance) (by rw [advance_pc_toNat]; omega) hst _
    · exact hst

/-! ### A key wait stays at its FX0A (R144) -/

/-- A waiting FX0A leaves the word at PC as it was, and a delivered key ends the wait. -/
theorem step_ldVxK_keyWaitOk {s t : State} {w : Word} {x : RegIdx} (hw : s.fetchWord = some w)
    (hd : decode w = .ldVxK x) (h : step s = .next t) : t.keyWaitOk := by
  have hstay (kw : KeyWait) : ({ s.advance.stay with kw := kw } : State).fetchWord = some w := by
    rw [State.fetchWord, ← hw, State.fetchWord]
    exact congrArg (fun p : Word => s.mem.readWord p.toNat) (advance_stay_pc s)
  have he : step s = execLdVxK x s.advance := by rw [step_of_fetchWord hw, hd]; rfl
  rcases execLdVxK_cases x s.advance with ⟨-, -, hn⟩ | ⟨k, -, -, hn⟩ | ⟨k, -, -, hn⟩ | ⟨k, -, -, hn⟩ <;>
    obtain rfl := Host.Outcome.next.inj (h.symm.trans (he.trans hn))
  · exact .inr ⟨w, x, hstay s.kw, hd⟩
  · exact .inr ⟨w, x, hstay (.capturedPress k), hd⟩
  · exact .inr ⟨w, x, hstay s.kw, hd⟩
  · exact .inl rfl

/-- Settles O55: only FX0A changes KW, and a waiting FX0A stays at its own word. -/
theorem everyStepKeepsTheKeyWaitAtAnFX0A : Obligations.EveryStepKeepsTheKeyWaitAtAnFX0A := by
  intro s t hs h
  rcases step_cases s with ⟨w, hw, he⟩ | ⟨-, he⟩
  · by_cases hd : ∃ x, decode w = .ldVxK x
    · obtain ⟨x, hx⟩ := hd
      exact step_ldVxK_keyWaitOk hw hx h
    · have hkw : t.kw = s.kw := by
        obtain ⟨-, -, -, -, -, -, hkw, -⟩ := onlyListedInstructionsWriteSpecialState (decode w) s.advance t (he ▸ h)
        exact hkw fun x hx => hd ⟨x, hx⟩
      rcases hs with hidle | ⟨w', x, hw', hx⟩
      · exact .inl (hkw.trans hidle)
      · obtain rfl := Option.some.inj (hw.symm.trans hw')
        exact absurd ⟨x, hx⟩ hd
  · obtain rfl := Host.Outcome.next.inj (h.symm.trans he)
    exact hs

/-! ### Host operations and runs -/

/-- Everything LoadROM can do (R185, R186). -/
theorem loadROM_cases (bytes : List Byte) (s : State) :
    (s.toAggregate = Aggregate.reset ∧ bytes.length ≤ 3584 ∧ loadROM bytes s = storeBytes 0x200 bytes s.done) ∨
      (s.toAggregate = Aggregate.reset ∧ 3584 < bytes.length ∧
        loadROM bytes s = .next { s with status := .romTooLarge, faulted := true }) ∨
      (s.toAggregate ≠ Aggregate.reset ∧ loadROM bytes s = .refused .loadOutOfTurn) := by
  by_cases hr : s.toAggregate = Aggregate.reset
  · by_cases hl : bytes.length ≤ 3584
    · exact .inl ⟨hr, hl, by rw [loadROM, if_pos hr, if_neg (Nat.not_lt.2 hl)]⟩
    · exact .inr (.inl ⟨hr, by omega, by rw [loadROM, if_pos hr, if_pos (show bytes.length > 3584 by omega)]; rfl⟩)
  · exact .inr (.inr ⟨hr, by rw [loadROM, if_neg hr]⟩)

/-- Settles O11: a step has an effect or reports an error, and LoadROM is the one operation that can be refused. -/
theorem everyOperationAnswersANextState : Obligations.EveryOperationAnswersANextState := by
  refine ⟨step_next, fun op s => ?_⟩
  cases op with
  | reset => exact .inl ⟨_, rfl⟩
  | step rand => exact .inl (step_next { s with rand := rand })
  | tick => exact .inl ⟨_, rfl⟩
  | setKeys keys => exact .inl ⟨_, rfl⟩
  | loadROM bytes =>
    rcases loadROM_cases bytes s with ⟨-, hl, h⟩ | ⟨-, -, h⟩ | ⟨hr, h⟩
    · exact .inl ⟨_, h.trans (storeBytes_eq (by simp only [Config.memSize]; omega) _)⟩
    · exact .inl ⟨_, h⟩
    · exact .inr ⟨h, hr, bytes, rfl⟩

/-- What every operation of a sequence keeps, the sequence keeps. -/
theorem runOps_induction {P : State → Prop} {ops : List HostOp}
    (hop : ∀ op ∈ ops, ∀ s t, P s → runOp op s = .next t → P t) {s t : State} (hs : P s)
    (h : runOps ops s = .next t) : P t := by
  induction ops generalizing s with
  | nil => exact Host.Outcome.next.inj h ▸ hs
  | cons op rest ih =>
    simp only [runOps] at h
    split at h
    · rename_i s' hop'
      exact ih (fun o ho => hop o (List.mem_cons_of_mem _ ho)) (hop op List.mem_cons_self s s' hs hop') h
    · cases h
    · cases h

/-- Settles O52: the reset memory lists nothing, PC is 0x200, every slot is 0 and KW is Idle. -/
theorem resetMeetsTheInvariants : Obligations.ResetMeetsTheInvariants :=
  ⟨reset_mem_wf, ⟨by decide, by decide⟩, .inl rfl⟩

theorem step_Inv {s t : State} (hs : s.Inv) (h : step s = .next t) : t.Inv := by
  obtain ⟨h1, h2, h3⟩ := hs
  exact ⟨everyStepKeepsMemoryCanonical s t h1 h, everyStepKeepsPCBounded s t h2 h,
    everyStepKeepsTheKeyWaitAtAnFX0A s t h3 h⟩

theorem loadROM_Inv {bytes : List Byte} {s t : State} (hs : s.Inv) (h : loadROM bytes s = .next t) : t.Inv := by
  rcases loadROM_cases bytes s with ⟨hr, -, he⟩ | ⟨-, -, he⟩ | ⟨-, he⟩ <;> rw [he] at h
  · obtain ⟨ht, hwf⟩ := storeBytes_next h
    obtain ⟨hmem, hpc, -⟩ := hs
    rw [ht]
    exact ⟨hwf hmem, hpc, .inl (congrArg Aggregate.kw hr)⟩
  · exact Host.Outcome.next.inj h ▸ hs
  · cases h

theorem runOp_Inv {op : HostOp} {s t : State} (hs : s.Inv) (h : runOp op s = .next t) : t.Inv := by
  cases op with
  | reset => exact Host.Outcome.next.inj h ▸ resetMeetsTheInvariants
  | loadROM bytes => exact loadROM_Inv hs h
  | step rand => exact step_Inv (s := { s with rand := rand }) hs h
  | tick => exact Host.Outcome.next.inj h ▸ hs
  | setKeys keys => exact Host.Outcome.next.inj h ▸ hs

/-- Settles O56: every operation keeps the invariants, so every sequence does (`runOps_induction`). -/
theorem everyRunKeepsTheInvariants : Obligations.EveryRunKeepsTheInvariants := fun _ _ _ hs h =>
  runOps_induction (fun _ _ _ _ => runOp_Inv) hs h

theorem not_fetchable_of_gt {s : State} (h : 4094 < s.pc.toNat) : s.fetchable = false :=
  Bool.eq_false_iff.2 fun hf => Nat.not_le.2 h ((fetchable_iff s).1 hf)

/-- From a state with PC above 4094 no operation but Reset changes more than the timers and the keys. -/
theorem runOp_of_stuck {op : HostOp} {s t : State} (hpc : 4094 < s.pc.toNat) (hop : op ≠ .reset)
    (h : runOp op s = .next t) :
    t.toAggregate = { s.toAggregate with dt := t.dt, st := t.st, keys := t.keys } := by
  cases op with
  | reset => exact absurd rfl hop
  | loadROM bytes =>
    have hr : s.toAggregate ≠ Aggregate.reset := fun hr => by
      have : s.pc = 0x200#16 := congrArg Aggregate.pc hr
      rw [this] at hpc
      exact absurd hpc (by decide)
    rw [show runOp (.loadROM bytes) s = .refused .loadOutOfTurn from if_neg hr] at h
    cases h
  | step rand =>
    have hf : ({ s with rand := rand } : State).fetchable = false := not_fetchable_of_gt hpc
    obtain rfl := Host.Outcome.next.inj (h.symm.trans (step_of_not_fetchable hf))
    rfl
  | tick => exact Host.Outcome.next.inj h ▸ rfl
  | setKeys keys => exact Host.Outcome.next.inj h ▸ rfl

/-- Settles O10: no operation but Reset moves PC back, so every state of the run is stuck. -/
theorem fetchOutOfRangeIsStuckUntilReset : Obligations.FetchOutOfRangeIsStuckUntilReset := by
  intro ops s t hpc hops h
  have ht : t.toAggregate = { s.toAggregate with dt := t.dt, st := t.st, keys := t.keys } := by
    refine runOps_induction (P := fun u => u.toAggregate = { s.toAggregate with dt := u.dt, st := u.st, keys := u.keys })
      (fun op hop u v hu hv => ?_) rfl h
    have hpcu : u.pc = s.pc := by rw [hu]
    rw [runOp_of_stuck (hpcu ▸ hpc) (fun he => hops (he ▸ hop)) hv, hu]
  have hpct : t.pc = s.pc := by rw [ht]
  have hf : t.fetchable = false := not_fetchable_of_gt (hpct ▸ hpc)
  exact ⟨ht, step_of_not_fetchable hf, ⟨tick t, rfl, countDown_toNat t.dt, countDown_toNat t.st, rfl⟩, fun _ => rfl⟩

end Sys2Proof.Machine
end

section
/-! The control flow and key skip families (spec/41_control_flow.md, spec/45_keypad_timers.md R140 to R142). -/

namespace Sys2Proof.Machine

/-- NNN + V0 fits in 16 bits, so the sum is exact (R95). -/
theorem toNat_addrToPC_add_byteToPC (a : Addr12) (b : Byte) : (addrToPC a + byteToPC b).toNat = a.toNat + b.toNat := by
  have ha := a.isLt
  have hb := b.isLt
  rw [BitVec.toNat_add, addrToPC_toNat, byteToPC_toNat]
  exact Nat.mod_eq_of_lt (show a.toNat + b.toNat < 65536 by omega)

/-- Settles O17 (R92, R95): each of the two is one write of PC. -/
theorem jumpsSetPC : Obligations.JumpsSetPC := fun nnn s =>
  ⟨wordNNN_eq_or 0x1 nnn, wordNNN_eq_or 0xB nnn, ⟨_, rfl, addrToPC_toNat nnn, rfl⟩,
    ⟨_, rfl, toNat_addrToPC_add_byteToPC nnn (s.getV 0), rfl⟩⟩

/-- A call below the depth pushes the advanced PC and jumps (R94). -/
theorem exec_call_of_lt {s : State} (h : s.sp.val < Config.stackDepth) (nnn : Addr12) :
    exec (.call nnn) s = .next { s with
      pc := addrToPC nnn, stack := s.stack.set s.sp.val s.pc h, sp := ⟨s.sp.val + 1, Nat.succ_lt_succ h⟩ } := by
  rcases execCall_cases nnn s with ⟨_, he⟩ | ⟨hfull, -⟩
  · exact he
  · exact absurd h (by rw [hfull]; decide)

/-- A return from a stack that is not empty pops into PC (R93). -/
theorem exec_ret_of_pos {s : State} {n : Nat} (hn : n < Config.stackDepth) (h : s.sp.val = n + 1) (u : Nibble) :
    exec (.ret u) s = .next { s with pc := s.stack[n], sp := ⟨n, Nat.lt_succ_of_lt hn⟩ } := by
  rcases execRet_cases s with ⟨m, _, hm, he⟩ | ⟨h0, -⟩
  · obtain rfl : m = n := by omega
    exact he
  · rw [h0] at h
    exact absurd h (Nat.succ_ne_zero n).symm

/-- Settles O18 (R94, R90): the push is one write of the stack, at SP. -/
theorem callPushesTheReturnAddress : Obligations.CallPushesTheReturnAddress := by
  intro nnn s
  refine ⟨wordNNN_eq_or 0x2 nnn,
    fun hlt => ⟨_, exec_call_of_lt hlt nnn, rfl, ?slot, ?others, addrToPC_toNat nnn, rfl⟩, fun hfull => ?full⟩
  case slot => exact Vector.getElem?_set_self hlt
  case others => exact fun j hj => Vector.getElem?_set_ne hlt (Ne.symm hj)
  case full =>
    rcases execCall_cases nnn s with ⟨hlt, -⟩ | ⟨-, he⟩
    · exact absurd hlt (by rw [hfull]; decide)
    · exact he

/-- Settles O19 (R93, R90): the pop reads the slot below SP and writes none. -/
theorem retPopsTheReturnAddress : Obligations.RetPopsTheReturnAddress := by
  intro u s
  rcases execRet_cases s with ⟨n, hn, hsp, he⟩ | ⟨h0, he⟩
  · refine ⟨fun _ => ⟨_, he, ?sp, ?slot, rfl⟩, fun h => by omega⟩
    case sp => exact (congrArg (· - 1) hsp).symm
    case slot => rw [hsp]; exact Vector.getElem?_eq_getElem hn
  · exact ⟨fun h => absurd h (by rw [h0]; decide), fun _ => he⟩

/-- Settles O20 (R93): the slot a call writes is the slot the return reads. -/
theorem callThenRetComesBack : Obligations.CallThenRetComesBack := by
  intro nnn u s s1 s2 hlt h hsp hst
  obtain rfl := Host.Outcome.next.inj (h.symm.trans (exec_call_of_lt hlt nnn))
  refine ⟨_, exec_ret_of_pos (s := s2) hlt (congrArg Fin.val hsp) u, ?_, rfl, hst⟩
  simp only [hst]
  exact Vector.getElem_set_self hlt

/-- Settles O22 (R98, R99): the low nibble is a field of the word, and a skip that is taken or not changes PC only. -/
theorem skipsCompareRegisters : Obligations.SkipsCompareRegisters := fun x y u s =>
  ⟨wordXYN_eq_or 0x5 x y u, wordXYN_eq_or 0x9 x y u, congrArg Host.Outcome.next (skipIf_beq (s.getV x) (s.getV y) s),
    congrArg Host.Outcome.next (skipIf_bne (s.getV x) (s.getV y) s)⟩

theorem skipIf_eq_ite (c : Bool) (s : State) : s.skipIf c = { s with pc := if c then s.pc + 2 else s.pc } := by
  rw [skipIf_eq, skipIf_pc]

/-- Settles O23 (R140, R141, R142): both skips are `skipOnKey`, for a key in the wanted position. -/
theorem skipsOnKeys : Obligations.SkipsOnKeys := by
  intro x s
  have hcases (wanted : Bool) := skipOnKey_cases x wanted s
  refine ⟨fun hle => ?_, fun hgt => ?_⟩
  · have hrun (wanted : Bool) :
        skipOnKey x wanted s = .next (s.skipIf (s.keys.getLsbD (s.getV x).toNat == wanted)) := by
      rcases hcases wanted with ⟨hgt, -⟩ | ⟨-, he⟩
      · omega
      · exact he
    refine ⟨(hrun true).trans ?_, (hrun false).trans ?_⟩ <;> rw [skipIf_eq_ite]
    · simp
    · cases s.keys.getLsbD (s.getV x).toNat <;> rfl
  · have hraise (wanted : Bool) :
        skipOnKey x wanted s = .next { s with status := .keyIndexOutOfRange, faulted := true } := by
      rcases hcases wanted with ⟨-, he⟩ | ⟨hle, -⟩
      · exact he
      · omega
    exact ⟨hraise true, hraise false⟩

end Sys2Proof.Machine
end

section
/-! The ALU family (spec/42_alu.md): the instructions that write a result and a flag (R100). -/

namespace Sys2Proof.Machine

/-- A flag-writing instruction answers a state with the result in V[X], the flag in VF unless X = 0xF, and nothing else
changed. -/
theorem setFlagged_spec (s : State) (x : RegIdx) (flag b : Byte) :
    (s.setFlagged x flag b).getV x = b ∧ (x ≠ 0xF → (s.setFlagged x flag b).getV 0xF = flag) ∧
      onlyRegisterAndFlag x s (s.setFlagged x flag b) :=
  ⟨getV_setV_same _ x b, fun h => (getV_setFlagged s x regF flag b).trans ((if_neg (Ne.symm h)).trans (if_pos rfl)),
    setFlagged_onlyRegisterAndFlag s x flag b⟩

theorem flagByte_decide (p : Prop) [Decidable p] : flagByte (decide p) = if p then 1 else 0 := by
  by_cases h : p <;> simp [flagByte, h]

theorem toNat_flagByte (b : Bool) : (flagByte b).toNat = b.toNat := by cases b <;> rfl

/-- The difference of two bytes is the difference modulo 256. -/
theorem toInt_sub_emod (a b : Byte) : ((a - b).toNat : Int) = ((a.toNat : Int) - b.toNat) % 256 := by
  have ha := a.isLt
  have hb := b.isLt
  rw [BitVec.toNat_sub]
  omega

/-- Settles O26 (R107, R108, R110): each is a flagged write (`setFlagged_spec`) of a sum or difference modulo 256. -/
theorem addAndSubtractWithFlag : Obligations.AddAndSubtractWithFlag := by
  intro x y s
  obtain ⟨hadd, hcarry, hframe⟩ := setFlagged_spec s x (carryFlag (s.getV x) (s.getV y)) (s.getV x + s.getV y)
  obtain ⟨hsub, hflag, hframe'⟩ := setFlagged_spec s x (noBorrowFlag (s.getV x) (s.getV y)) (s.getV x - s.getV y)
  obtain ⟨hsubn, hflagn, hframen⟩ := setFlagged_spec s x (noBorrowFlag (s.getV y) (s.getV x)) (s.getV y - s.getV x)
  refine ⟨⟨_, rfl, ?sum, fun hx => (hcarry hx).trans (flagByte_decide _), hframe⟩,
    ⟨_, rfl, ?difference, fun hx => (hflag hx).trans (flagByte_decide _), hframe'⟩,
    ⟨_, rfl, ?reverse, fun hx => (hflagn hx).trans (flagByte_decide _), hframen⟩⟩
  case sum => exact (congrArg BitVec.toNat hadd).trans (BitVec.toNat_add _ _)
  case difference => exact (congrArg (fun b : Byte => (b.toNat : Int)) hsub).trans (toInt_sub_emod _ _)
  case reverse => exact (congrArg (fun b : Byte => (b.toNat : Int)) hsubn).trans (toInt_sub_emod _ _)

theorem toNat_lowBitFlag (b : Byte) : (lowBitFlag b).toNat = b.toNat % 2 := by
  rw [lowBitFlag, toNat_flagByte, BitVec.getLsbD, Nat.testBit_zero]
  rcases Nat.mod_two_eq_zero_or_one b.toNat with h | h <;> simp [h]

theorem toNat_highBitFlag (b : Byte) : (highBitFlag b).toNat = b.toNat / 128 := by
  revert b; decide

/-- Settles O27 (R109, R111): each is a flagged write of a shifted byte and the bit shifted out. -/
theorem shiftsByOne : Obligations.ShiftsByOne := by
  intro x y s
  obtain ⟨hshr, hlow, hframe⟩ := setFlagged_spec s x (lowBitFlag (s.getV x)) (s.getV x >>> 1)
  obtain ⟨hshl, hhigh, hframe'⟩ := setFlagged_spec s x (highBitFlag (s.getV x)) (s.getV x <<< 1)
  refine ⟨⟨_, rfl, ?half, fun hx => (congrArg BitVec.toNat (hlow hx)).trans (toNat_lowBitFlag _), hframe⟩,
    ⟨_, rfl, ?double, fun hx => (congrArg BitVec.toNat (hhigh hx)).trans (toNat_highBitFlag _), hframe'⟩⟩
  case half =>
    refine (congrArg BitVec.toNat hshr).trans ?_
    rw [BitVec.toNat_ushiftRight, Nat.shiftRight_eq_div_pow, Nat.pow_one]
  case double =>
    refine (congrArg BitVec.toNat hshl).trans ?_
    rw [BitVec.toNat_shiftLeft, Nat.shiftLeft_eq, Nat.pow_one]

end Sys2Proof.Machine
end

section
/-! The index and memory family (spec/43_index_memory.md, spec/20_memory.md): the digits, the block store and load,
the range check, canonical memories. -/

namespace Sys2Proof.Machine

/-- Settles O30 (R122): `glyphAddress` is the formula, which fits in 16 bits. -/
theorem fontAddressIsNotMasked : Obligations.FontAddressIsNotMasked := fun x s =>
  ⟨wordXNN_eq_orX 0xF x 0x29, ⟨_, rfl, glyphAddress_toNat (s.getV x), rfl⟩⟩

/-! ### Loads and stores in range -/

/-- The three digits of a byte and what makes them its decimal digits (R123). -/
theorem bcdDigits_spec (b : Byte) : ∃ d2 d1 d0 : Byte, bcdDigits b = [d2, d1, d0] ∧
    b.toNat = 100 * d2.toNat + 10 * d1.toNat + d0.toNat ∧ d1.toNat ≤ 9 ∧ d0.toNat ≤ 9 := by
  have hb := b.isLt
  refine ⟨_, _, _, rfl, ?_⟩
  simp only [BitVec.toNat_ofNat]
  omega

/-- Settles O31 (R123): the stored bytes are the digits, each at its place. -/
theorem bcdStoresTheDigits : Obligations.BcdStoresTheDigits := by
  intro x s hs hi
  rcases execLdB_cases x s with ⟨-, m, he, hm⟩ | ⟨hgt, -⟩
  · obtain ⟨-, hread⟩ := hm hs
    obtain ⟨d2, d1, d0, hd, hdec⟩ := bcdDigits_spec (s.getV x)
    have hat (j : Nat) (hj : j < 3) : m.read (s.i.toNat + j) = [d2, d1, d0][j]? := by
      rw [hread, if_pos (by omega), hd, Nat.add_sub_cancel_left]
    exact ⟨_, he, rfl, ⟨d2, d1, d0, hat 0 (by decide), hat 1 (by decide), hat 2 (by decide), hdec⟩,
      fun a ha => (hread a).trans (if_neg (by omega))⟩
  · omega

/-- A block store in range puts each register at its place and leaves every other byte alone (R124). -/
theorem exec_storeRegs_spec {x : RegIdx} {s : State} (hs : s.memOk) (hi : s.i.toNat + x.toNat ≤ 4095) :
    ∃ m, exec (.storeRegs x) s = .next { s with mem := m } ∧
      (∀ r : RegIdx, r.toNat ≤ x.toNat → m.read (s.i.toNat + r.toNat) = some (s.getV r)) ∧
      ∀ a, ¬ (s.i.toNat ≤ a ∧ a ≤ s.i.toNat + x.toNat) → m.read a = s.mem.read a := by
  rcases execStoreRegs_cases x s with ⟨-, m, he, hm⟩ | ⟨hgt, -⟩
  · obtain ⟨-, hread⟩ := hm hs
    refine ⟨m, he, fun r hr => ?_, fun a ha => (hread a).trans (if_neg ha)⟩
    rw [hread, if_pos (by omega), Nat.add_sub_cancel_left, regRange_getElem? s x r hr]
  · omega

/-- A block load in range reads each register from its place and leaves the registers above X alone (R126). -/
theorem exec_loadRegs_spec {x : RegIdx} {s : State} (hi : s.i.toNat + x.toNat ≤ 4095) :
    ∃ v, exec (.loadRegs x) s = .next { s with v := v } ∧
      (∀ r : RegIdx, r.toNat ≤ x.toNat →
        s.mem.read (s.i.toNat + r.toNat) = some (({ s with v := v } : State).getV r)) ∧
      ∀ r : RegIdx, x.toNat < r.toNat → ({ s with v := v } : State).getV r = s.getV r := by
  rcases execLoadRegs_cases x s with ⟨-, bytes, he, hl, hread⟩ | ⟨hgt, -⟩
  · refine ⟨_, he, fun r hr => ?_, fun r hr => ?_⟩
    · have hlt : r.toNat < bytes.length := by omega
      rw [← hread r.toNat (by omega), State.getV]
      simp only [writeRegsFrom_getElem bytes 0 s.v r.toNat r.isLt]
      simp [hlt]
    · exact writeRegsFrom_zero_getElem_of_le r.isLt (by omega)
  · omega

/-- Settles O32 (R124, R125): `exec_storeRegs_spec`. -/
theorem blockStoreWritesTheRegisters : Obligations.BlockStoreWritesTheRegisters := fun _ _ hs hi =>
  let ⟨_, he, hplaces, hothers⟩ := exec_storeRegs_spec hs hi
  ⟨_, he, rfl, hplaces, hothers⟩

/-- Settles O33 (R126, R125): `exec_loadRegs_spec`. -/
theorem blockLoadReadsTheRegisters : Obligations.BlockLoadReadsTheRegisters := fun _ _ hi =>
  let ⟨_, he, hplaces, habove⟩ := exec_loadRegs_spec hi
  ⟨_, he, rfl, hplaces, habove⟩

/-- Settles O34 (R48, R49): the table of R157 gives each of the four its error. -/
theorem outOfRangeAccessDoesNothing : Obligations.OutOfRangeAccessDoesNothing := by
  intro x y n s
  have hraise {i : Instr} (h : errorOf i s = .addressOutOfRange) :
      exec i s = .next { s with status := .addressOutOfRange, faulted := true } := exec_of_errorOf h (by decide)
  exact ⟨fun h => hraise (if_pos h), fun h => ⟨hraise (if_pos h), hraise (if_pos h)⟩,
    fun hn h => hraise (if_pos ⟨hn, h⟩)⟩

/-- Settles O35 (R126): the load reads the places the store wrote. -/
theorem storeThenLoadRestoresTheRegisters : Obligations.StoreThenLoadRestoresTheRegisters := by
  intro x s s1 s2 hs hi h hI hmem
  obtain ⟨m, he, hplaces, -⟩ := exec_storeRegs_spec hs hi
  obtain rfl := Host.Outcome.next.inj (h.symm.trans he)
  have hI' : s2.i.toNat = s.i.toNat := congrArg BitVec.toNat hI
  obtain ⟨v, hl, hregs, -⟩ := exec_loadRegs_spec (x := x) (s := s2) (by omega)
  refine ⟨_, hl, fun r hr => ?_⟩
  have hload := hregs r hr
  rw [hmem, hI', hplaces r hr] at hload
  exact (Option.some.inj hload).symm

/-- Settles O36 (R53, R193): the two places of the word are two places of the store. -/
theorem storesAreSeenByTheNextFetch : Obligations.StoresAreSeenByTheNextFetch := by
  intro x r s s1 t hs hi h hr hmem hpc
  obtain ⟨m, he, hplaces, -⟩ := exec_storeRegs_spec hs hi
  obtain rfl := Host.Outcome.next.inj (h.symm.trans he)
  have hx := x.isLt
  have hr1 : (r + 1).toNat = r.toNat + 1 := by
    rw [BitVec.toNat_add]
    exact Nat.mod_eq_of_lt (show r.toNat + 1 < 16 by omega)
  have hlo := hplaces (r + 1) (by omega)
  rw [hr1, ← Nat.add_assoc] at hlo
  rw [State.fetchWord, hmem, hpc]
  exact readWord_eq (hplaces r (by omega)) hlo

/-! ### Canonical memories -/

/-- The first listed byte of a canonical memory is seen beside a memory that lists nothing so low. -/
theorem lookup_head_ne {lo lo' a : Nat} {b : Byte} {m m' : Memory} (hm : Memory.wfFrom lo ((a, b) :: m) = true)
    (hm' : Memory.wfFrom lo' m' = true) (h : a < lo') :
    (Memory.lookup a ((a, b) :: m)).getD (initialByte a) ≠ (m'.lookup a).getD (initialByte a) := by
  obtain ⟨-, -, hb, -⟩ := (wfFrom_cons ..).1 hm
  rw [lookup_eq_none_of_lt hm' h]
  simpa [Memory.lookup] using hb

/-- Canonical memories that read the same are the same list, cell by cell. -/
theorem eq_of_lookup_eq {lo lo' : Nat} {m m' : Memory} (hm : Memory.wfFrom lo m = true)
    (hm' : Memory.wfFrom lo' m' = true)
    (h : ∀ a, a < Config.memSize → (m.lookup a).getD (initialByte a) = (m'.lookup a).getD (initialByte a)) :
    m = m' := by
  induction m generalizing lo lo' m' with
  | nil =>
    cases m' with
    | nil => rfl
    | cons c' m' =>
      obtain ⟨-, ha', -, -⟩ := (wfFrom_cons ..).1 hm'
      exact absurd (h c'.1 ha').symm (lookup_head_ne (lo' := c'.1 + 1) hm' rfl (Nat.lt_succ_self _))
  | cons c m ih =>
    obtain ⟨a, b⟩ := c
    obtain ⟨-, ha, hb, hrest⟩ := (wfFrom_cons ..).1 hm
    cases m' with
    | nil => exact absurd (h a ha) (lookup_head_ne (lo' := a + 1) hm rfl (Nat.lt_succ_self a))
    | cons c' m' =>
      obtain ⟨a', b'⟩ := c'
      obtain ⟨-, ha', hb', hrest'⟩ := (wfFrom_cons ..).1 hm'
      rcases Nat.lt_trichotomy a a' with hlt | rfl | hgt
      · have hfrom : Memory.wfFrom a' ((a', b') :: m') = true := (wfFrom_cons ..).2 ⟨Nat.le_refl a', ha', hb', hrest'⟩
        exact absurd (h a ha) (lookup_head_ne hm hfrom hlt)
      · have hbb : b = b' := by simpa [Memory.lookup] using h a ha
        have hmm : m = m' := ih hrest hrest' fun c hc => by
          by_cases hca : c = a
          · subst hca
            rw [lookup_eq_none_of_lt hrest (Nat.lt_succ_self c), lookup_eq_none_of_lt hrest' (Nat.lt_succ_self c)]
          · simpa [Memory.lookup, Ne.symm hca] using h c hc
        rw [hbb, hmm]
      · have hfrom : Memory.wfFrom a ((a, b) :: m) = true := (wfFrom_cons ..).2 ⟨Nat.le_refl a, ha, hb, hrest⟩
        exact absurd (h a' ha').symm (lookup_head_ne hm' hfrom hgt)

/-- Settles O37: equal reads inside memory are equal lookups. -/
theorem canonicalMemoryIsUnique : Obligations.CanonicalMemoryIsUnique := fun m m' hm hm' h =>
  eq_of_lookup_eq hm hm' fun a ha => by simpa [Memory.read, ha] using h a

end Sys2Proof.Machine
end

section
/-! The display family (spec/44_display.md). -/

namespace Sys2Proof.Machine

/-- Settles O38 (R130): the one write is of the cleared framebuffer. -/
theorem clsTurnsEveryPixelOff : Obligations.ClsTurnsEveryPixelOff := fun u _ =>
  ⟨wordXNN_eq_orX 0x0 u 0xE0, ⟨_, rfl, get_clear, rfl⟩⟩

/-- Settles O41 (R131): with no rows no bit is plotted, so the collision flag stays clear. -/
theorem drwOfNoRowsClearsVF : Obligations.DrwOfNoRowsClearsVF := fun _ _ s =>
  ⟨_, rfl, getV_setV_same s regF 0, fun _ hr => getV_setV_ne s hr 0, rfl⟩

/-- A draw in range: every pixel is exclusive-ored with the sprite of R131, VF says whether a set bit met a lit pixel, and
nothing else changes. -/
theorem exec_drw_spec {x y : RegIdx} {n : Nibble} {s : State} (hi : n = 0 ∨ s.i.toNat + n.toNat - 1 ≤ 4095) :
    ∃ t, exec (.drw x y n) s = .next t ∧ t = { s with v := t.v, fb := t.fb } ∧
      (∀ r, r ≠ 0xF → t.getV r = s.getV r) ∧
      (∀ px py, t.fb.get px py = (s.fb.get px py ^^ spriteBitAt s (s.getV x) (s.getV y) n px py)) ∧
      (t.getV 0xF = 1 ∨ t.getV 0xF = 0) ∧
      (t.getV 0xF = 1 ↔
        ∃ px py, spriteBitAt s (s.getV x) (s.getV y) n px py = true ∧ s.fb.get px py = true) := by
  rcases execDrw_cases x y n s with ⟨-, rows, he, hl, hr⟩ | ⟨hn, hgt, -⟩
  · obtain ⟨hpixels, hflag, hhit, hregs, hframe⟩ := drawSprite_spec (s.getV x) (s.getV y) rows s
    simp only [spriteMask_eq_spriteBitAt hl hr] at hpixels hhit
    exact ⟨_, he, hframe, hregs, hpixels, hflag, hhit⟩
  · rcases hi with rfl | hi
    · exact absurd hn (by decide)
    · omega

/-- Settles O39 (R131, R133): `exec_drw_spec`. -/
theorem drwXorsTheSprite : Obligations.DrwXorsTheSprite := fun _ _ _ _ hi =>
  let ⟨t, he, hframe, hregs, hpixels, _⟩ := exec_drw_spec hi
  ⟨t, he, hframe, hregs, hpixels⟩

/-- Settles O40 (R132): VF is 1 or 0, and 1 exactly on a collision (`exec_drw_spec`). -/
theorem drwReportsTheCollision : Obligations.DrwReportsTheCollision := by
  intro x y n s t hi h
  obtain ⟨t', he, -, -, -, hflag, hhit⟩ := exec_drw_spec (x := x) (y := y) hi
  obtain rfl := Host.Outcome.next.inj (h.symm.trans he)
  exact ⟨hhit.2, fun hnone => hflag.resolve_left fun h1 => hnone (hhit.1 h1)⟩

theorem spriteBitAt_congr {s s' : State} (hmem : s'.mem = s.mem) (hi : s'.i = s.i) (vx vy : Byte) (n : Nibble)
    (px : Fin Config.fbW) (py : Fin Config.fbH) : spriteBitAt s' vx vy n px py = spriteBitAt s vx vy n px py := by
  simp only [spriteBitAt, hmem, hi]

/-- Settles O42: both draws exclusive-or the same sprite, and twice is not at all. -/
theorem drawingTwiceRestoresTheScreen : Obligations.DrawingTwiceRestoresTheScreen := by
  intro x y x' y' n s s1 s2 hi h hfb hmem hI hx hy
  obtain ⟨t1, he1, -, -, hpixels1, -⟩ := exec_drw_spec (x := x) (y := y) hi
  obtain rfl := Host.Outcome.next.inj (h.symm.trans he1)
  obtain ⟨t, he, -, -, hpixels, -, hhit⟩ := exec_drw_spec (x := x') (y := y') (n := n) (s := s2) (by rwa [hI])
  simp only [hx, hy, spriteBitAt_congr hmem hI, hfb] at hpixels hhit
  refine ⟨t, he, Framebuffer.ext_get fun px py => ?_, hhit.2⟩
  rw [hpixels, hpixels1, Bool.xor_assoc, Bool.xor_self, Bool.xor_false]

end Sys2Proof.Machine
end

section
/-! The keypad and timers family (spec/45_keypad_timers.md): the key wait, the lowest key, the countdown. -/

namespace Sys2Proof.Machine

/-! ### The lowest key (R143) -/

theorem mem_allKeys (k : Key) : k ∈ allKeys := by revert k; decide

theorem allKeys_ascending : allKeys.Pairwise fun j k => j.toNat < k.toNat := by decide

theorem lowestKey_eq_none_iff (keys : BitVec 16) : lowestKey keys = none ↔ keys = 0 := by
  rw [lowestKey, List.find?_eq_none]
  constructor
  · intro h
    apply BitVec.eq_of_getLsbD_eq
    intro j hj
    have hup := h (BitVec.ofNat 4 j) (mem_allKeys _)
    rw [keyDown, BitVec.toNat_ofNat, Nat.mod_eq_of_lt hj] at hup
    simpa using hup
  · rintro rfl k -
    simp [keyDown]

/-- The key found is down, and every smaller one stands before it in the list and is up. -/
theorem lowestKey_least {keys : BitVec 16} {k : Key} (h : lowestKey keys = some k) :
    keys.getLsbD k.toNat = true ∧ ∀ j : Key, j.toNat < k.toNat → keys.getLsbD j.toNat = false := by
  obtain ⟨hk, before, after, hl, hup⟩ := List.find?_eq_some_iff_append.1 h
  refine ⟨hk, fun j hj => ?_⟩
  have hasc := allKeys_ascending
  have hmem := mem_allKeys j
  rw [hl] at hasc hmem
  obtain ⟨-, hafter, -⟩ := List.pairwise_append.1 hasc
  rcases List.mem_append.1 hmem with hb | ha
  · simpa [keyDown] using hup j hb
  · rcases List.mem_cons.1 ha with rfl | ha
    · omega
    · have := (List.pairwise_cons.1 hafter).1 j ha
      omega

/-- Settles O44: two keys that are down with every smaller one up are one key. -/
theorem lowestKeyIsTheLeastDown : Obligations.LowestKeyIsTheLeastDown := by
  intro keys
  refine ⟨lowestKey_eq_none_iff keys, fun k => ⟨lowestKey_least, fun ⟨hk, hleast⟩ => ?_⟩⟩
  cases h : lowestKey keys with
  | none =>
    rw [(lowestKey_eq_none_iff keys).1 h] at hk
    simp at hk
  | some k' =>
    obtain ⟨hk', hleast'⟩ := lowestKey_least h
    rcases Nat.lt_trichotomy k.toNat k'.toNat with hlt | heq | hgt
    · exact absurd hk (by simp [hleast' k hlt])
    · rw [BitVec.eq_of_toNat_eq heq]
    · exact absurd hk' (by simp [hleast k' hgt])

/-! ### The key wait (R144) -/

theorem exec_ldVxK_of_no_key {s : State} (hk : s.kw = .idle) (hl : lowestKey s.keys = none) (x : RegIdx) :
    exec (.ldVxK x) s = .next s.stay := by
  simp only [exec, execLdVxK, hk, hl]

theorem exec_ldVxK_of_press {s : State} {k : Key} (hk : s.kw = .idle) (hl : lowestKey s.keys = some k) (x : RegIdx) :
    exec (.ldVxK x) s = .next { s.stay with kw := .capturedPress k } := by
  simp only [exec, execLdVxK, hk, hl]

theorem exec_ldVxK_of_down {s : State} {k : Key} (hk : s.kw = .capturedPress k) (hd : s.keys.getLsbD k.toNat = true)
    (x : RegIdx) : exec (.ldVxK x) s = .next s.stay := by
  simp only [exec, execLdVxK, hk, keyDown, hd, if_true]

theorem exec_ldVxK_of_release {s : State} {k : Key} (hk : s.kw = .capturedPress k) (hd : s.keys.getLsbD k.toNat = false)
    (x : RegIdx) : exec (.ldVxK x) s = .next { s.setV x (zextKey k) with kw := .idle } := by
  simp only [exec, execLdVxK, hk, keyDown, hd, Bool.false_eq_true, if_false]

theorem zextKey_toNat (k : Key) : (zextKey k).toNat = k.toNat := BitVec.toNat_setWidth_of_le (by decide)

/-- Settles O43 (R144): one lemma for each move. -/
theorem keyWaitStateMachine : Obligations.KeyWaitStateMachine := fun x s =>
  ⟨fun hk h0 => exec_ldVxK_of_no_key hk ((lowestKey_eq_none_iff s.keys).2 h0) x,
    fun _ hk hl => exec_ldVxK_of_press hk hl x, fun _ hk hd => exec_ldVxK_of_down hk hd x,
    fun k hk hd => ⟨_, exec_ldVxK_of_release hk hd x,
      (congrArg BitVec.toNat (getV_setV_same s x (zextKey k))).trans (zextKey_toNat k), rfl,
      fun _ hr => getV_setV_ne s hr (zextKey k), rfl⟩⟩

theorem lowestKey_one_shiftLeft (k : Key) : lowestKey (1#16 <<< k.toNat) = some k := by revert k; decide

/-- The step on an FX0A that sees key `k` pressed stays where it is and captures the key. -/
theorem step_ldVxK_of_press {s : State} {w : Word} {x : RegIdx} {k : Key} (hw : s.fetchWord = some w)
    (hd : decode w = .ldVxK x) (hk : s.kw = .idle) (hl : lowestKey s.keys = some k) :
    step s = .next { s with kw := .capturedPress k, status := .ok } := by
  rw [step_of_fetchWord hw, hd, exec_ldVxK_of_press (s := s.advance) hk hl x]
  exact congrArg (fun p => Host.Outcome.next { s with pc := p, kw := .capturedPress k, status := .ok }) (advance_stay_pc s)

/-- The step on an FX0A that sees the captured key released delivers it and goes on. -/
theorem step_ldVxK_of_release {s : State} {w : Word} {x : RegIdx} {k : Key} (hw : s.fetchWord = some w)
    (hd : decode w = .ldVxK x) (hk : s.kw = .capturedPress k) (hup : s.keys.getLsbD k.toNat = false) :
    step s = .next { s.advance.setV x (zextKey k) with kw := .idle } := by
  rw [step_of_fetchWord hw, hd, exec_ldVxK_of_release (s := s.advance) hk hup x]

/-- Settles O45: the press is captured at the FX0A, the machine stays there, and the release delivers it. -/
theorem keyPressThenReleaseDeliversTheKey : Obligations.KeyPressThenReleaseDeliversTheKey := by
  intro s w x k hw hd hidle
  refine ⟨_, _, step_ldVxK_of_press (s := setKeys _ s) hw hd hidle (lowestKey_one_shiftLeft k), rfl, rfl, rfl,
    step_ldVxK_of_release (s := setKeys 0 _) hw hd rfl BitVec.getLsbD_zero, ?delivered, rfl, rfl, rfl⟩
  case delivered => exact (congrArg BitVec.toNat (getV_setV_same _ x (zextKey k))).trans (zextKey_toNat k)

/-! ### The countdown (R147) -/

/-- Settles O47: by induction on the number of ticks, each of which takes one, and nothing from 0. -/
theorem ticksCountDownAndHoldAtZero : Obligations.TicksCountDownAndHoldAtZero := by
  intro s n
  have hticks : (Nat.repeat tick n s).dt.toNat = s.dt.toNat - n ∧ (Nat.repeat tick n s).st.toNat = s.st.toNat - n := by
    induction n with
    | zero => exact ⟨rfl, rfl⟩
    | succ n ih =>
      obtain ⟨hdt, hst⟩ := ih
      refine ⟨(countDown_toNat _).trans ?_, (countDown_toNat _).trans ?_⟩
      · rw [hdt, Nat.sub_sub]
      · rw [hst, Nat.sub_sub]
  exact ⟨hticks.1, hticks.2, rfl⟩

end Sys2Proof.Machine
end

section
/-! The host's operations, reset and load (spec/60_exceptions.md section 5, spec/70_reset_and_hazards.md). -/

namespace Sys2Proof.Machine

/-- Settles O48 (R168, R169, R170): each is its definition. -/
theorem hostInputsAndOutputs : Obligations.HostInputsAndOutputs := fun _ _ =>
  ⟨rfl, decide_eq_true_iff, fun _ _ => rfl⟩

theorem reset_getV (r : RegIdx) : State.reset.getV r = 0 := Vector.getElem_replicate _

theorem reset_read {a : Nat} (ha : a < 4096) (hfont : ¬ (0x50 ≤ a ∧ a < 0xA0)) : State.reset.mem.read a = some 0 := by
  have hinit : initialByte a = 0 := if_neg hfont
  rw [Memory.read, if_pos ha, hinit]
  rfl

/-- Settles O49 (R29, R180, R181): the reset aggregate, field by field. -/
theorem resetLeavesTheStatedValues : Obligations.ResetLeavesTheStatedValues := fun _ =>
  ⟨reset_getV, rfl, rfl, rfl, rfl, get_clear, rfl, fun _ => reset_read, rfl,
    fun j => Vector.getElem_replicate j.isLt, rfl, rfl, rfl⟩

/-- Settles O50 (R185): LoadROM stores the bytes (`storeBytes_spec`) in the reset memory, which is canonical. -/
theorem loadROMCopiesTheBytes : Obligations.LoadROMCopiesTheBytes := by
  intro bytes s hr
  rcases loadROM_cases bytes s with ⟨-, hle, he⟩ | ⟨-, hgt, he⟩ | ⟨hne, -⟩
  · refine ⟨fun _ => ?_, fun h => by omega⟩
    have hwf : s.done.mem.wf = true := (congrArg (fun g : Aggregate => g.mem.wf) hr).trans reset_mem_wf
    obtain ⟨m, hm, hspec⟩ := storeBytes_spec (a := 0x200) (bs := bytes) (by simp only [Config.memSize]; omega) s.done
    obtain ⟨-, hread⟩ := hspec hwf
    refine ⟨_, he.trans hm, rfl, fun j hj => ?_, fun a ha => (hread a).trans (if_neg ha)⟩
    exact (hread _).trans ((if_pos (by omega)).trans (by rw [Nat.add_sub_cancel_left]))
  · exact ⟨fun h => by omega, fun _ => he⟩
  · exact absurd hr hne

/-- Settles O51 (R186): the guard of LoadROM. -/
theorem loadROMOutOfTurnIsRefused : Obligations.LoadROMOutOfTurnIsRefused := fun _ _ hne => if_neg hne

end Sys2Proof.Machine
end
